-- ==== Sys2Proof/Word.lean ====
section
/-! DEFINITION. The word of the machine (00_scope.md R3) and the number of a general register (10_state.md R20). -/

namespace Sys2Proof

/-- A 16-bit word: an instruction, a datum or an address (00_scope.md R3, R7). -/
abbrev Word := BitVec 16

/-- The number of a general register, 0 to 7 (10_state.md R20, R23). -/
abbrev Reg := Fin 8

end Sys2Proof
end

