-- ==== Sys2Proof/Syntax.lean ====
section
/-! DEFINITION. The instructions: one constructor per row of spec/opcode_table.json, with the fields its handler reads (30_encoding.md R97, R99). -/

namespace Sys2Proof

/-- An instruction, decoded.
The bits that 30_encoding.md R98 calls ignored are in no constructor. -/
inductive Instr where
  /-- BR: `cond` is n z p from the most significant bit (30_encoding.md R94); 41_branch.md R140. -/
  | br (cond : BitVec 3) (off : BitVec 9)
  /-- ADD, register mode; 42_alu.md R150. -/
  | addReg (dr sr1 sr2 : Reg)
  /-- ADD, immediate mode; 42_alu.md R151. -/
  | addImm (dr sr1 : Reg) (imm : BitVec 5)
  /-- LD; 43_load_store.md R170. -/
  | ld (dr : Reg) (off : BitVec 9)
  /-- AND, register mode; 42_alu.md R152. -/
  | andReg (dr sr1 sr2 : Reg)
  /-- AND, immediate mode; 42_alu.md R153. -/
  | andImm (dr sr1 : Reg) (imm : BitVec 5)
  /-- LDR; 43_load_store.md R171. -/
  | ldr (dr base : Reg) (off : BitVec 6)
  /-- STR; 43_load_store.md R172. -/
  | str (sr base : Reg) (off : BitVec 6)
  /-- NOT; 42_alu.md R154. -/
  | not (dr sr : Reg)
  /-- LDI; 43_load_store.md R173. -/
  | ldi (dr : Reg) (off : BitVec 9)
  /-- STI; 43_load_store.md R174. -/
  | sti (sr : Reg) (off : BitVec 9)
  /-- LEA; 43_load_store.md R175. -/
  | lea (dr : Reg) (off : BitVec 9)
  /-- TRAP with vector 0x21, OUT; 44_trap.md R201. -/
  | trapOut
  /-- TRAP with vector 0x25, HALT; 44_trap.md R202. -/
  | trapHalt
  /-- TRAP with any other vector; 44_trap.md R203. -/
  | trapInvalid (vect : BitVec 8)
  /-- A word of opcode 3; 40_cycle.md R126. -/
  | invalid3
  /-- A word of opcode 4; 40_cycle.md R126. -/
  | invalid4
  /-- A word of opcode 8; 40_cycle.md R126. -/
  | invalid8
  /-- A word of opcode 12; 40_cycle.md R126. -/
  | invalid12
  /-- A word of opcode 13; 40_cycle.md R126. -/
  | invalid13
  deriving DecidableEq, Repr

end Sys2Proof
end

