-- ==== Sys2Proof/WellFormed.lean ====
section
/-! DEFINITION. Which terms of `Instr` stand for a word of the machine.
The field types already hold every range of 30_encoding.md R92 and R95; the one check left is the vector of an invalid TRAP (R100). -/

namespace Sys2Proof

/-- The instruction is one some word decodes to: an invalid TRAP's vector is neither OUT's nor HALT's (30_encoding.md R100). -/
def Instr.wf : Instr → Bool
  | .br _ _ => true
  | .addReg _ _ _ => true
  | .addImm _ _ _ => true
  | .ld _ _ => true
  | .andReg _ _ _ => true
  | .andImm _ _ _ => true
  | .ldr _ _ _ => true
  | .str _ _ _ => true
  | .not _ _ => true
  | .ldi _ _ => true
  | .sti _ _ => true
  | .lea _ _ => true
  | .trapOut => true
  | .trapHalt => true
  | .trapInvalid v => v != 0x21#8 && v != 0x25#8
  | .invalid3 => true
  | .invalid4 => true
  | .invalid8 => true
  | .invalid12 => true
  | .invalid13 => true

end Sys2Proof
end

