-- ==== Sys2Proof/Decode.lean ====
section
/-! DEFINITION. The decoder (30_encoding.md R91 to R102), total on all 65536 words, and after it the encoder from the same tables.
No word is rejected: the words the machine has no handler for are instructions of their own, the soft errors (R102). -/

namespace Sys2Proof

/-- A 3-bit field read unsigned as a register number (30_encoding.md R92). -/
def Reg.ofBits (b : BitVec 3) : Reg := ⟨b.toNat, b.isLt⟩

/-- The 3-bit field that names a register (30_encoding.md R92). -/
def Reg.toBits (r : Reg) : BitVec 3 := BitVec.ofNat 3 r.val

/-- `v[k]`, one bit of a word, bit 0 the least significant (00_scope.md R4). -/
def Word.bit (w : Word) (k : Nat) : Bool := w.getLsbD k

/-- `ir[11:9]`: DR, SR of the stores, and the branch condition (30_encoding.md R92, R94). -/
def Word.f11_9 (w : Word) : BitVec 3 := w.extractLsb' 9 3

/-- `ir[8:6]`: SR1, SR of NOT, BaseR (30_encoding.md R92). -/
def Word.f8_6 (w : Word) : BitVec 3 := w.extractLsb' 6 3

/-- `ir[5]`: the mode bit of ADD and AND (30_encoding.md R93). -/
def Word.mode (w : Word) : Bool := Word.bit w 5

/-- `ir[2:0]`: SR2 (30_encoding.md R92). -/
def Word.f2_0 (w : Word) : BitVec 3 := w.extractLsb' 0 3

/-- `ir[4:0]`: imm5 (30_encoding.md R95). -/
def Word.imm5 (w : Word) : BitVec 5 := w.extractLsb' 0 5

/-- `ir[5:0]`: offset6 (30_encoding.md R95). -/
def Word.offset6 (w : Word) : BitVec 6 := w.extractLsb' 0 6

/-- `ir[8:0]`: PCoffset9 (30_encoding.md R95). -/
def Word.pcOffset9 (w : Word) : BitVec 9 := w.extractLsb' 0 9

/-- `ir[7:0]`: trapvect8 (30_encoding.md R95). -/
def Word.trapvect8 (w : Word) : BitVec 8 := w.extractLsb' 0 8

/-- The second decoding of a TRAP, on its vector (30_encoding.md R100). -/
def decodeTrap (v : BitVec 8) : Instr :=
  if v = 0x21#8 then .trapOut
  else if v = 0x25#8 then .trapHalt
  else .trapInvalid v

/-- The decoder: the opcode map of 30_encoding.md R99 on `ir[15:12]` in binary, the fields of R97, the mode bit of R93. -/
def decode (w : Word) : Instr :=
  let r11 := Reg.ofBits (Word.f11_9 w)
  let r8 := Reg.ofBits (Word.f8_6 w)
  let r2 := Reg.ofBits (Word.f2_0 w)
  match Word.bit w 15, Word.bit w 14, Word.bit w 13, Word.bit w 12 with
  | false, false, false, false => .br (Word.f11_9 w) (Word.pcOffset9 w)
  | false, false, false, true => if Word.mode w then .addImm r11 r8 (Word.imm5 w) else .addReg r11 r8 r2
  | false, false, true, false => .ld r11 (Word.pcOffset9 w)
  | false, false, true, true => .invalid3
  | false, true, false, false => .invalid4
  | false, true, false, true => if Word.mode w then .andImm r11 r8 (Word.imm5 w) else .andReg r11 r8 r2
  | false, true, true, false => .ldr r11 r8 (Word.offset6 w)
  | false, true, true, true => .str r11 r8 (Word.offset6 w)
  | true, false, false, false => .invalid8
  | true, false, false, true => .not r11 r8
  | true, false, true, false => .ldi r11 (Word.pcOffset9 w)
  | true, false, true, true => .sti r11 (Word.pcOffset9 w)
  | true, true, false, false => .invalid12
  | true, true, false, true => .invalid13
  | true, true, true, false => .lea r11 (Word.pcOffset9 w)
  | true, true, true, true => decodeTrap (Word.trapvect8 w)

/-- The word of an instruction, field by field from the formats of 30_encoding.md R97.
The ignored bits of R98 are given the values of R105: `ir[4:3] = 00`, `ir[11:8] = 0000` for TRAP and `ir[5:0] = 111111` for NOT.
The twelve ignored bits of an invalid opcode are zero here (DESIGN CHOICE, log 8). -/
def encode : Instr → Word
  | .br c off => 0b0000#4 ++ c ++ off
  | .addReg d a b => 0b0001#4 ++ Reg.toBits d ++ Reg.toBits a ++ 0b0#1 ++ 0b00#2 ++ Reg.toBits b
  | .addImm d a imm => 0b0001#4 ++ Reg.toBits d ++ Reg.toBits a ++ 0b1#1 ++ imm
  | .ld d off => 0b0010#4 ++ Reg.toBits d ++ off
  | .andReg d a b => 0b0101#4 ++ Reg.toBits d ++ Reg.toBits a ++ 0b0#1 ++ 0b00#2 ++ Reg.toBits b
  | .andImm d a imm => 0b0101#4 ++ Reg.toBits d ++ Reg.toBits a ++ 0b1#1 ++ imm
  | .ldr d b off => 0b0110#4 ++ Reg.toBits d ++ Reg.toBits b ++ off
  | .str r b off => 0b0111#4 ++ Reg.toBits r ++ Reg.toBits b ++ off
  | .not d r => 0b1001#4 ++ Reg.toBits d ++ Reg.toBits r ++ 0b111111#6
  | .ldi d off => 0b1010#4 ++ Reg.toBits d ++ off
  | .sti r off => 0b1011#4 ++ Reg.toBits r ++ off
  | .lea d off => 0b1110#4 ++ Reg.toBits d ++ off
  | .trapOut => 0b1111#4 ++ 0b0000#4 ++ 0x21#8
  | .trapHalt => 0b1111#4 ++ 0b0000#4 ++ 0x25#8
  | .trapInvalid v => 0b1111#4 ++ 0b0000#4 ++ v
  | .invalid3 => 0b0011#4 ++ 0#12
  | .invalid4 => 0b0100#4 ++ 0#12
  | .invalid8 => 0b1000#4 ++ 0#12
  | .invalid12 => 0b1100#4 ++ 0#12
  | .invalid13 => 0b1101#4 ++ 0#12

/-- The fixed bits of an instruction's row: `match` of spec/opcode_table.json. -/
def Instr.tableMatch : Instr → Word
  | .br _ _ => 0x0000#16
  | .addReg _ _ _ => 0x1000#16
  | .addImm _ _ _ => 0x1020#16
  | .ld _ _ => 0x2000#16
  | .andReg _ _ _ => 0x5000#16
  | .andImm _ _ _ => 0x5020#16
  | .ldr _ _ _ => 0x6000#16
  | .str _ _ _ => 0x7000#16
  | .not _ _ => 0x9000#16
  | .ldi _ _ => 0xA000#16
  | .sti _ _ => 0xB000#16
  | .lea _ _ => 0xE000#16
  | .trapOut => 0xF021#16
  | .trapHalt => 0xF025#16
  | .trapInvalid _ => 0xF000#16
  | .invalid3 => 0x3000#16
  | .invalid4 => 0x4000#16
  | .invalid8 => 0x8000#16
  | .invalid12 => 0xC000#16
  | .invalid13 => 0xD000#16

/-- The places of the fixed bits of an instruction's row: `mask` of spec/opcode_table.json. -/
def Instr.tableMask : Instr → Word
  | .br _ _ => 0xF000#16
  | .addReg _ _ _ => 0xF020#16
  | .addImm _ _ _ => 0xF020#16
  | .ld _ _ => 0xF000#16
  | .andReg _ _ _ => 0xF020#16
  | .andImm _ _ _ => 0xF020#16
  | .ldr _ _ _ => 0xF000#16
  | .str _ _ _ => 0xF000#16
  | .not _ _ => 0xF000#16
  | .ldi _ _ => 0xF000#16
  | .sti _ _ => 0xF000#16
  | .lea _ _ => 0xF000#16
  | .trapOut => 0xF0FF#16
  | .trapHalt => 0xF0FF#16
  | .trapInvalid _ => 0xF000#16
  | .invalid3 => 0xF000#16
  | .invalid4 => 0xF000#16
  | .invalid8 => 0xF000#16
  | .invalid12 => 0xF000#16
  | .invalid13 => 0xF000#16

/-- The places of the bits the decoder ignores in an instruction's word (30_encoding.md R97, R98; for an invalid opcode, all but the opcode). -/
def Instr.ignoredMask : Instr → Word
  | .br _ _ => 0x0000#16
  | .addReg _ _ _ => 0x0018#16
  | .addImm _ _ _ => 0x0000#16
  | .ld _ _ => 0x0000#16
  | .andReg _ _ _ => 0x0018#16
  | .andImm _ _ _ => 0x0000#16
  | .ldr _ _ _ => 0x0000#16
  | .str _ _ _ => 0x0000#16
  | .not _ _ => 0x003F#16
  | .ldi _ _ => 0x0000#16
  | .sti _ _ => 0x0000#16
  | .lea _ _ => 0x0000#16
  | .trapOut => 0x0F00#16
  | .trapHalt => 0x0F00#16
  | .trapInvalid _ => 0x0F00#16
  | .invalid3 => 0x0FFF#16
  | .invalid4 => 0x0FFF#16
  | .invalid8 => 0x0FFF#16
  | .invalid12 => 0x0FFF#16
  | .invalid13 => 0x0FFF#16

/-- The bits of a table word as the machine stores them: one word, bit 0 the least significant (30_encoding.md R90, 00_scope.md R4). -/
def tableWord (nbits w : Nat) : Word := BitVec.ofNat 16 (w % 2 ^ nbits)

/-- What the decoder reads from an instruction of `nbits` bits numbered as the opcode table numbers them.
Every instruction is one 16-bit word (30_encoding.md R90), so there is none of more bits. -/
def decodeTableWord (nbits w : Nat) : Option Instr :=
  if nbits ≤ 16 then some (decode (tableWord nbits w)) else none

end Sys2Proof
end

