-- ==== Sys2Proof/Config.lean ====
section
/-! DEFINITION. What is fixed for one machine (00_scope.md R3), and the points the spec leaves OPEN, as constants with no body. -/

namespace Sys2Proof

/-- The number of memory words: addresses 0 to 49 (00_scope.md R3, 20_memory.md R60). -/
abbrev Config.memSize : Nat := 50

/-- The three values the OPEN parameter CC_RESET may take (10_state.md R34): N, Z or P set. -/
inductive CcReset where
  | n
  | z
  | p
  deriving DecidableEq, Repr, Inhabited

/-- The kind of a memory access, as an `AddressError` records it (10_state.md R39). -/
inductive Access where
  | fetch
  | load
  | store
  deriving DecidableEq, Repr, Inhabited

/-- CC_RESET: which of the three one-hot values `cc` has after reset (10_state.md R34, decision D11).
OPEN in the spec, so it has no body here: a claim holds for all three.
DESIGN CHOICE, log 1. -/
opaque Config.ccReset : CcReset

/-- What `fault_addr` holds before any fault: unspecified (10_state.md R39), so any value.
DESIGN CHOICE, log 2. -/
opaque Config.faultAddrReset : Word

/-- What `fault_access` holds before any fault: unspecified (10_state.md R39), so any value.
DESIGN CHOICE, log 2. -/
opaque Config.faultAccessReset : Access

/-- CONSOLE_RENDER: the code point the console shows for a value of 256 or more (44_trap.md R201, decision D15).
OPEN in the spec and outside the block.
DESIGN CHOICE, log 11. -/
opaque Config.consoleRender : Word → Nat

end Sys2Proof
end

