-- ==== Sys2Proof/Machine/State.lean ====
section
/-! DEFINITION. The state of the machine (10_state.md R19 and its table), its reset value (70_reset_and_hazards.md R250), and the reasons a step can stop. -/

namespace Sys2Proof.Machine

/-- The six values of `state` (10_state.md R36). -/
inductive FsmState where
  /-- Before `execute`. -/
  | idle
  /-- RUNNING, about to fetch. -/
  | fetch
  /-- RUNNING, a word fetched. -/
  | decode
  /-- RUNNING, the handler about to run. -/
  | execute
  /-- Stopped by TRAP HALT. -/
  | halted
  /-- Stopped by `AddressError`. -/
  | faulted
  deriving DecidableEq, Repr

/-- Why a run ended (10_state.md R38). -/
inductive StopCause where
  | none
  | halt
  | addressError
  deriving DecidableEq, Repr

/-- The two soft decode errors (10_state.md R43, 60_exceptions.md R226). -/
inductive SoftErrorKind where
  | invalidInstruction
  | invalidTrap
  deriving DecidableEq, Repr

/-- One event of the diagnostic port: `SoftError(kind, pc_of_instr, ir)` (10_state.md R43). -/
structure SoftError where
  kind : SoftErrorKind
  pcOfInstr : Word
  ir : Word
  deriving DecidableEq, Repr

/-- Memory: the words that differ from their reset value, by word address.
The machine addresses no byte (20_memory.md R60), so a cell holds a word (DEDUCED, log 3).
The canonical form is `Memory.wf`. -/
abbrev Memory := List (Nat × Word)

/-- All the state the machine has (10_state.md R19), and the two traces of its ports (70_reset_and_hazards.md R251). -/
structure State where
  /-- `x[0]` to `x[7]` (10_state.md R20). -/
  regs : Vector Word 8
  /-- The program counter (10_state.md R25). -/
  pc : Word
  /-- The instruction register (10_state.md R29). -/
  ir : Word
  /-- The condition codes, N Z P from the most significant bit (10_state.md R30). -/
  cc : BitVec 3
  /-- `state`, the state machine (10_state.md R36). -/
  fsm : FsmState
  /-- `stop_cause` (10_state.md R38). -/
  stopCause : StopCause
  /-- `fault_addr` (10_state.md R39). -/
  faultAddr : Word
  /-- `fault_access` (10_state.md R39). -/
  faultAccess : Access
  /-- `mem[0]` to `mem[49]` (20_memory.md R60). -/
  mem : Memory
  /-- The console trace: the `Out` values issued, oldest first (70_reset_and_hazards.md R251). -/
  console : List Word
  /-- The diagnostic trace, oldest first (70_reset_and_hazards.md R251). -/
  diag : List SoftError
  deriving DecidableEq, Repr

/-- The reasons a step stops with a fault: none.
The machine's one fatal error, `AddressError`, is an entry the spec describes (40_cycle.md R127), so it is a next state, FAULTED; no rule of the spec leaves a step without an effect. -/
inductive Fault where
  deriving DecidableEq, Repr

/-- The reasons a step is refused. -/
inductive Refusal where
  /-- Raised by an arm of `exec` whose instruction has no meaning yet: no arm is such. Safe: the machine goes on and the model stops. -/
  | notModelled (mnemonic : String)
  deriving DecidableEq, Repr

/-- The outcome of a step of this machine. -/
abbrev Outcome := Host.Outcome State Fault Refusal

/-- The 3 bits of a value of CC_RESET, N Z P (10_state.md R30, R34). -/
def ccResetBits : CcReset → BitVec 3
  | .n => 0b100#3
  | .z => 0b010#3
  | .p => 0b001#3

/-- The machine after reset, for given values of what the spec leaves open: CC_RESET, `fault_addr` and `fault_access` (70_reset_and_hazards.md R250). -/
def State.resetWith (cc0 : CcReset) (faultAddr0 : Word) (faultAccess0 : Access) : State where
  regs := #v[0#16, 1#16, 2#16, 3#16, 4#16, 5#16, 6#16, 7#16]
  pc := 0#16
  ir := 0#16
  cc := ccResetBits cc0
  fsm := .idle
  stopCause := .none
  faultAddr := faultAddr0
  faultAccess := faultAccess0
  mem := []
  console := []
  diag := []

/-- The machine right after reset (70_reset_and_hazards.md R250), the open values being those of this machine's Config (log 1, log 2). -/
def State.reset : State :=
  State.resetWith Config.ccReset Config.faultAddrReset Config.faultAccessReset

end Sys2Proof.Machine
end

