-- ==== Sys2Proof/Machine/Operands.lean ====
section
/-! DEFINITION. The sign-extension logic (30_encoding.md R96), the ALU (42_alu.md R155) and the memory address calculator (20_memory.md R64), with the general registers they read. -/

namespace Sys2Proof.Machine

/-- `x[r]`, a general register (10_state.md R20).
No register is hard-wired. -/
def State.reg (s : State) (r : Reg) : Word := s.regs.get r

/-- `x[r] <- v` (00_scope.md R8). -/
def State.setReg (s : State) (r : Reg) (v : Word) : State :=
  { s with regs := s.regs.set r.val v r.isLt }

/-- SEXT5: imm5 sign-extended to 16 bits (30_encoding.md R95, R96). -/
def sext5 (f : BitVec 5) : Word := f.signExtend 16

/-- SEXT6: offset6 sign-extended to 16 bits (30_encoding.md R95, R96). -/
def sext6 (f : BitVec 6) : Word := f.signExtend 16

/-- SEXT9: PCoffset9 sign-extended to 16 bits (30_encoding.md R95, R96). -/
def sext9 (f : BitVec 9) : Word := f.signExtend 16

/-- The ALU's ADD: the sum modulo 2^16 (42_alu.md R155, R156; 90_conflicts.md C1). -/
def aluAdd (a b : Word) : Word := a + b

/-- The ALU's AND, bit by bit (42_alu.md R155). -/
def aluAnd (a b : Word) : Word := a &&& b

/-- The ALU's NOT, inverting all 16 bits (42_alu.md R155). -/
def aluNot (a : Word) : Word := ~~~a

/-- The address calculator's PC-relative mode: `pc + sext_16(PCoffset9)` modulo 2^16, `pc` being already the address of the instruction + 1 (20_memory.md R64, 10_state.md R26). -/
def State.eaPcRel (s : State) (off : BitVec 9) : Word := s.pc + sext9 off

/-- The address calculator's base + offset mode: `x[BaseR] + sext_16(offset6)` modulo 2^16 (20_memory.md R64, R66). -/
def State.eaBaseOff (s : State) (base : Reg) (off : BitVec 6) : Word := s.reg base + sext6 off

end Sys2Proof.Machine
end

