-- ==== Sys2Proof/Machine/Flags.lean ====
section
/-! DEFINITION. The condition codes: `SetCC` (10_state.md R31), which is all the machine's flag logic (42_alu.md R155), and BR's test of them (41_branch.md R140). -/

namespace Sys2Proof.Machine

/-- The value `SetCC(v)` gives `cc`: N for a negative `v`, Z for zero, P otherwise (10_state.md R31). -/
def ccOf (v : Word) : BitVec 3 :=
  if v.getLsbD 15 then 0b100#3
  else if v = 0x0000#16 then 0b010#3
  else 0b001#3

/-- `SetCC(v)` (10_state.md R31). -/
def State.setCC (s : State) (v : Word) : State := { s with cc := ccOf v }

/-- BR's test: `(cond & cc) != 0b000`, a bitwise AND and not an equality (41_branch.md R140, R143). -/
def State.condHolds (s : State) (cond : BitVec 3) : Bool := cond &&& s.cc != 0b000#3

end Sys2Proof.Machine
end

