-- ==== Sys2Proof/Machine/Ops.lean ====
section
/-! DEFINITION. The named operations over memory, registers, ports and the state machine that the meanings share.
Taking an `AddressError` is ONE operation here, `State.raiseAddressError`.
There is no return from it (60_exceptions.md R230): only the host's reset leaves FAULTED, in Machine/HostPort.lean. -/

namespace Sys2Proof.Machine

/-- What a word that memory does not list reads as: its reset value (20_memory.md R61). -/
abbrev Memory.unlisted : Word := 0x0000#16

/-- The word at address `a` (20_memory.md R60). -/
def Memory.read : Memory → Nat → Word
  | [], _ => Memory.unlisted
  | (b, w) :: m, a => if a = b then w else Memory.read m a

/-- Memory with the word `v` at address `a`, in the canonical form. -/
def Memory.write : Memory → Nat → Word → Memory
  | [], a, v => if v = Memory.unlisted then [] else [(a, v)]
  | (b, w) :: m, a, v =>
    if a < b then (if v = Memory.unlisted then (b, w) :: m else (a, v) :: (b, w) :: m)
    else if a = b then (if v = Memory.unlisted then m else (a, v) :: m)
    else (b, w) :: Memory.write m a v

/-- The canonical form: addresses strictly rising, every one below 50, no word equal to what an unlisted address reads as. -/
abbrev Memory.wf (m : Memory) : Prop :=
  m.Pairwise (fun c d => c.1 < d.1) ∧ ∀ c ∈ m, c.1 < Config.memSize ∧ c.2 ≠ Memory.unlisted

/-- The range check of every access, `a <u 50` (20_memory.md R62, R63). -/
abbrev inMemory (a : Word) : Prop := a.toNat < Config.memSize

/-- `MemRead(a, 1)`: the word at `a`, or nothing where it raises `AddressError` (20_memory.md R62). -/
def State.memRead (s : State) (a : Word) : Option Word :=
  if inMemory a then some (s.mem.read a.toNat) else none

/-- `MemWrite(a, 1, v)`: the state after the write, or nothing where it raises `AddressError` (20_memory.md R63). -/
def State.memWrite (s : State) (a v : Word) : Option State :=
  if inMemory a then some { s with mem := s.mem.write a.toNat v } else none

/-- `raise AddressError(addr, access)`: the state machine goes to FAULTED and the record is written; nothing else changes (40_cycle.md R127, 60_exceptions.md R221, R223). -/
def State.raiseAddressError (s : State) (addr : Word) (access : Access) : State :=
  { s with fsm := .faulted, stopCause := .addressError, faultAddr := addr, faultAccess := access }

/-- The handler completes: the state machine goes from EXECUTE to FETCH (40_cycle.md R120). -/
def State.complete (s : State) : State := { s with fsm := .fetch }

/-- `stop_cause <- HALT; stop Halted` (44_trap.md R202, 40_cycle.md R125). -/
def State.stopHalted (s : State) : State := { s with fsm := .halted, stopCause := .halt }

/-- A read of the word at `a`, and then `k` of that word, unless the read raises `AddressError(a, LOAD)` (00_scope.md R9, 60_exceptions.md R221). -/
def State.loadThen (s : State) (a : Word) (k : Word → State) : State :=
  match s.memRead a with
  | some v => k v
  | none => s.raiseAddressError a .load

/-- A write of `v` at `a`, which completes the handler, unless it raises `AddressError(a, STORE)` (00_scope.md R9, 60_exceptions.md R221). -/
def State.storeWord (s : State) (a v : Word) : State :=
  match s.memWrite a v with
  | some t => t.complete
  | none => s.raiseAddressError a .store

/-- A result written to its destination register, `SetCC` on it, and the handler completes (10_state.md R32). -/
def State.writeResult (s : State) (dr : Reg) (v : Word) : State :=
  ((s.setReg dr v).setCC v).complete

/-- `log SoftError(kind, pc - 1, ir)`: one event at the end of the diagnostic trace, no other effect (60_exceptions.md R226). -/
def State.logSoftError (s : State) (kind : SoftErrorKind) : State :=
  { s with diag := s.diag ++ [{ kind := kind, pcOfInstr := s.pc - 1#16, ir := s.ir }] }

/-- `emit Out(v)`: one value at the end of the console trace, all 16 bits (44_trap.md R201).
The sink is taken to accept it at once (DESIGN CHOICE, log 6). -/
def State.emitOut (s : State) (v : Word) : State := { s with console := s.console ++ [v] }

/-- The code of a `stop_cause` (10_state.md R38). -/
def StopCause.code : StopCause → Nat
  | .none => 0
  | .halt => 1
  | .addressError => 2

/-- The code of a `fault_access` (10_state.md R39). -/
def accessCode : Access → Nat
  | .fetch => 0
  | .load => 1
  | .store => 2

/-- The code of a soft error (10_state.md R43). -/
def SoftErrorKind.code : SoftErrorKind → Nat
  | .invalidInstruction => 0
  | .invalidTrap => 1

/-- The text logged for a soft error (60_exceptions.md R226). -/
def SoftErrorKind.text : SoftErrorKind → String
  | .invalidInstruction => "invalid instruction"
  | .invalidTrap => "invalid trap"

/-- The code point the console shows for an `Out` value: the Latin-1 character below 256, the OPEN parameter CONSOLE_RENDER from 256 on (44_trap.md R201, 90_conflicts.md C2). -/
def consoleCodePoint (v : Word) : Nat :=
  if v.toNat < 256 then v.toNat else Config.consoleRender v

end Sys2Proof.Machine
end

