-- ==== Sys2Proof/Machine/Alu.lean ====
section
/-! DEFINITION. The meanings of ADD, AND and NOT (42_alu.md). -/

namespace Sys2Proof.Machine

/-- ADD, register mode (42_alu.md R150). -/
def execAddReg (dr sr1 sr2 : Reg) (s : State) : Outcome :=
  .next (s.writeResult dr (aluAdd (s.reg sr1) (s.reg sr2)))

/-- ADD, immediate mode (42_alu.md R151). -/
def execAddImm (dr sr1 : Reg) (imm : BitVec 5) (s : State) : Outcome :=
  .next (s.writeResult dr (aluAdd (s.reg sr1) (sext5 imm)))

/-- AND, register mode (42_alu.md R152). -/
def execAndReg (dr sr1 sr2 : Reg) (s : State) : Outcome :=
  .next (s.writeResult dr (aluAnd (s.reg sr1) (s.reg sr2)))

/-- AND, immediate mode (42_alu.md R153). -/
def execAndImm (dr sr1 : Reg) (imm : BitVec 5) (s : State) : Outcome :=
  .next (s.writeResult dr (aluAnd (s.reg sr1) (sext5 imm)))

/-- NOT, of a copy of the source (42_alu.md R154). -/
def execNot (dr sr : Reg) (s : State) : Outcome :=
  .next (s.writeResult dr (aluNot (s.reg sr)))

end Sys2Proof.Machine
end

