-- ==== Sys2Proof/Machine/Branch.lean ====
section
/-! DEFINITION. The meaning of BR (41_branch.md). -/

namespace Sys2Proof.Machine

/-- BR: `pc <- pc + sext_16(PCoffset9)` if the condition holds, else `pc` as it is; no access, no check of the target (41_branch.md R140). -/
def execBr (cond : BitVec 3) (off : BitVec 9) (s : State) : Outcome :=
  .next { s with pc := if s.condHolds cond then s.eaPcRel off else s.pc }.complete

end Sys2Proof.Machine
end

