-- ==== Sys2Proof/Machine/Invalid.lean ====
section
/-! DEFINITION. The meanings of the words of the invalid opcodes 3, 4, 8, 12 and 13 (40_cycle.md R126). -/

namespace Sys2Proof.Machine

/-- INVALID_INSTRUCTION is logged and execution goes on (40_cycle.md R126). -/
def State.skipInvalid (s : State) : State := (s.logSoftError .invalidInstruction).complete

/-- A word of opcode 3 (40_cycle.md R126). -/
def execInvalid3 (s : State) : Outcome := .next s.skipInvalid

/-- A word of opcode 4 (40_cycle.md R126). -/
def execInvalid4 (s : State) : Outcome := .next s.skipInvalid

/-- A word of opcode 8 (40_cycle.md R126). -/
def execInvalid8 (s : State) : Outcome := .next s.skipInvalid

/-- A word of opcode 12 (40_cycle.md R126). -/
def execInvalid12 (s : State) : Outcome := .next s.skipInvalid

/-- A word of opcode 13 (40_cycle.md R126). -/
def execInvalid13 (s : State) : Outcome := .next s.skipInvalid

end Sys2Proof.Machine
end

