-- ==== Sys2Proof/Machine/LoadStore.lean ====
section
/-! DEFINITION. The meanings of LD, LDR, STR, LDI, STI and LEA (43_load_store.md). -/

namespace Sys2Proof.Machine

/-- LD: one PC-relative read, which sets `cc` (43_load_store.md R170). -/
def execLd (dr : Reg) (off : BitVec 9) (s : State) : Outcome :=
  .next (s.loadThen (s.eaPcRel off) fun v => s.writeResult dr v)

/-- LDR: one base + offset read, which sets `cc` (43_load_store.md R171, 90_conflicts.md C6; contested, log 9). -/
def execLdr (dr base : Reg) (off : BitVec 6) (s : State) : Outcome :=
  .next (s.loadThen (s.eaBaseOff base off) fun v => s.writeResult dr v)

/-- STR: one base + offset write (43_load_store.md R172). -/
def execStr (sr base : Reg) (off : BitVec 6) (s : State) : Outcome :=
  .next (s.storeWord (s.eaBaseOff base off) (s.reg sr))

/-- LDI: a PC-relative read of the pointer, then a read at the pointer, unsigned (43_load_store.md R173). -/
def execLdi (dr : Reg) (off : BitVec 9) (s : State) : Outcome :=
  .next (s.loadThen (s.eaPcRel off) fun p => s.loadThen p fun v => s.writeResult dr v)

/-- STI: a PC-relative read of the pointer, then a write at the pointer, unsigned (43_load_store.md R174). -/
def execSti (sr : Reg) (off : BitVec 9) (s : State) : Outcome :=
  .next (s.loadThen (s.eaPcRel off) fun p => s.storeWord p (s.reg sr))

/-- LEA: the PC-relative address as a value, with no access and no check (43_load_store.md R175; a negative sum wraps, log 10). -/
def execLea (dr : Reg) (off : BitVec 9) (s : State) : Outcome :=
  .next (s.writeResult dr (s.eaPcRel off))

end Sys2Proof.Machine
end

