-- ==== Sys2Proof/Machine/Trap.lean ====
section
/-! DEFINITION. The meanings of TRAP: OUT, HALT and the invalid vectors (44_trap.md).
No TRAP reads memory, moves `pc`, writes a register or saves a return address (R200). -/

namespace Sys2Proof.Machine

/-- TRAP OUT: `emit Out(x[0])` (44_trap.md R201). -/
def execTrapOut (s : State) : Outcome :=
  .next (s.emitOut (s.reg 0)).complete

/-- TRAP HALT: the run stops in HALTED (44_trap.md R202). -/
def execTrapHalt (s : State) : Outcome :=
  .next s.stopHalted

/-- TRAP with any other vector: INVALID_TRAP is logged and execution goes on (44_trap.md R203).
The event holds the word itself, `ir`, so the decoded vector is not read (what an ill-formed vector does: log 15). -/
def execTrapInvalid (_vect : BitVec 8) (s : State) : Outcome :=
  .next (s.logSoftError .invalidTrap).complete

end Sys2Proof.Machine
end

