-- ==== Sys2Proof/Machine/Dispatch.lean ====
section
/-! DEFINITION. EXECUTE: the handler of each instruction (40_cycle.md R123), one arm per constructor. -/

namespace Sys2Proof.Machine

/-- The EXECUTE step of instruction `i`, with `pc` its address + 1 and `ir` its word (40_cycle.md R123). -/
def exec (i : Instr) (s : State) : Host.Outcome State Fault Refusal :=
  match i with
  | .br cond off => Sys2Proof.Machine.execBr cond off s
  | .addReg dr sr1 sr2 => Sys2Proof.Machine.execAddReg dr sr1 sr2 s
  | .addImm dr sr1 imm => Sys2Proof.Machine.execAddImm dr sr1 imm s
  | .ld dr off => Sys2Proof.Machine.execLd dr off s
  | .andReg dr sr1 sr2 => Sys2Proof.Machine.execAndReg dr sr1 sr2 s
  | .andImm dr sr1 imm => Sys2Proof.Machine.execAndImm dr sr1 imm s
  | .ldr dr base off => Sys2Proof.Machine.execLdr dr base off s
  | .str sr base off => Sys2Proof.Machine.execStr sr base off s
  | .not dr sr => Sys2Proof.Machine.execNot dr sr s
  | .ldi dr off => Sys2Proof.Machine.execLdi dr off s
  | .sti sr off => Sys2Proof.Machine.execSti sr off s
  | .lea dr off => Sys2Proof.Machine.execLea dr off s
  | .trapOut => Sys2Proof.Machine.execTrapOut s
  | .trapHalt => Sys2Proof.Machine.execTrapHalt s
  | .trapInvalid vect => Sys2Proof.Machine.execTrapInvalid vect s
  | .invalid3 => Sys2Proof.Machine.execInvalid3 s
  | .invalid4 => Sys2Proof.Machine.execInvalid4 s
  | .invalid8 => Sys2Proof.Machine.execInvalid8 s
  | .invalid12 => Sys2Proof.Machine.execInvalid12 s
  | .invalid13 => Sys2Proof.Machine.execInvalid13 s

end Sys2Proof.Machine
end

