-- ==== Sys2Proof/Machine/Cycle.lean ====
section
/-! DEFINITION. The fetch-decode-dispatch state machine's phases (40_cycle.md R120 to R124). -/

namespace Sys2Proof.Machine

/-- FETCH where `pc <u 50`: `ir <- mem[pc]; pc <- pc + 1; state <- DECODE`; nothing where the read raises `AddressError` (40_cycle.md R121). -/
def State.fetchWord (s : State) : Option State :=
  match s.memRead s.pc with
  | some w => some { s with ir := w, pc := s.pc + 1#16, fsm := .decode }
  | none => none

/-- EXECUTE: the handler selected from `ir` runs (40_cycle.md R123). -/
def State.executePhase (s : State) : Outcome := exec (decode s.ir) s

/-- DECODE selects the handler, changes no architectural state, and EXECUTE follows (40_cycle.md R122). -/
def State.decodePhase (s : State) : Outcome := State.executePhase { s with fsm := .execute }

/-- FETCH and what follows it: one pass, or the `AddressError(pc, FETCH)` (40_cycle.md R121, R124). -/
def State.fetchPhase (s : State) : Outcome :=
  match s.fetchWord with
  | some t => t.decodePhase
  | none => .next (s.raiseAddressError s.pc .fetch)

end Sys2Proof.Machine
end

