-- ==== Sys2Proof/Machine/Step.lean ====
section
/-! DEFINITION. One step: one pass through FETCH, DECODE and EXECUTE (40_cycle.md R124); in IDLE, HALTED and FAULTED, which only a host call leaves, the state stays (R120). -/

namespace Sys2Proof.Machine

/-- One step of the block, between two host calls.
In FETCH it is the whole pass of 40_cycle.md R124.
DECODE and EXECUTE never stand between steps (R124): from them the step finishes the pass (log 5).
IDLE, HALTED and FAULTED have no transition of their own (R120; DEDUCED, log 4). -/
def step (s : State) : Host.Outcome State Fault Refusal :=
  match s.fsm with
  | .idle => .next s
  | .fetch => s.fetchPhase
  | .decode => s.decodePhase
  | .execute => s.executePhase
  | .halted => .next s
  | .faulted => .next s

/-- The state in which the word `w` is the one the very next step fetches and runs: the word stands at `pc`, and the state machine is in FETCH.
It stands for the host's `loadWord` and `execute` (70_reset_and_hazards.md R255; log 7). -/
def State.withFetchWord (s : State) (nbits w : Nat) : State :=
  match s.memWrite s.pc (tableWord nbits w) with
  | some t => { t with fsm := .fetch }
  | none => { s with fsm := .fetch }

end Sys2Proof.Machine
end

