-- ==== Sys2Proof/Machine/HostPort.lean ====
section
/-! DEFINITION. The host control port and the read accessors (10_state.md R44, R45; 70_reset_and_hazards.md R250 to R257).
They act between steps, from outside the block. -/

namespace Sys2Proof.Machine

/-- A call on the host control port (10_state.md R44).
`loadWord` takes any integer as its address: the spec's own example is -1 (60_exceptions.md R225). -/
inductive HostCall where
  | reset
  | loadWord (address : Int) (word : Word)
  | execute
  deriving DecidableEq, Repr

/-- What the port answers a call. -/
inductive HostReply where
  /-- The call was accepted and has its effect. -/
  | accepted
  /-- A `loadWord` outside [0, 50): nothing written (60_exceptions.md R225). -/
  | addressError
  /-- A call made in a state that does not accept it: no effect (70_reset_and_hazards.md R256, R257). -/
  | refused
  deriving DecidableEq, Repr

/-- What `execute` answers when it returns (40_cycle.md R125, R127). -/
inductive RunEnd where
  | halt
  | addressError (addr : Word) (access : Access)
  deriving DecidableEq, Repr

/-- `loadWord(address, word)` (70_reset_and_hazards.md R256, 60_exceptions.md R225).
The state is checked before the address (log 13). -/
def State.hostLoadWord (s : State) (address : Int) (word : Word) : HostReply × State :=
  if s.fsm = .idle then
    if 0 ≤ address ∧ address < Config.memSize then
      (.accepted, { s with mem := s.mem.write address.toNat word })
    else (.addressError, s)
  else (.refused, s)

/-- `execute`: from IDLE to FETCH (40_cycle.md R120, 70_reset_and_hazards.md R257). -/
def State.hostExecute (s : State) : HostReply × State :=
  if s.fsm = .idle then (.accepted, { s with fsm := .fetch }) else (.refused, s)

/-- `reset`: every piece of state to its reset value, whatever state the block was in (70_reset_and_hazards.md R250). -/
def State.hostReset (_s : State) : HostReply × State := (.accepted, State.reset)

/-- A call on the host control port: its answer and the state after it (10_state.md R44). -/
def State.hostCall (s : State) : HostCall → HostReply × State
  | .reset => s.hostReset
  | .loadWord a w => s.hostLoadWord a w
  | .execute => s.hostExecute

/-- What `execute` has returned with, once the run has ended (40_cycle.md R125, R127; 60_exceptions.md R222). -/
def State.executeReturn (s : State) : Option RunEnd :=
  match s.fsm with
  | .halted => some .halt
  | .faulted => some (.addressError s.faultAddr s.faultAccess)
  | _ => none

/-- The host may read the registers, memory and `cc`: in IDLE, HALTED and FAULTED (10_state.md R45).
Elsewhere the accessors answer nothing (DEDUCED, log 16). -/
def State.hostMayRead (s : State) : Bool :=
  match s.fsm with
  | .idle => true
  | .halted => true
  | .faulted => true
  | _ => false

/-- The read accessor of `x[r]` (10_state.md R45). -/
def State.hostReadReg (s : State) (r : Reg) : Option Word :=
  if s.hostMayRead then some (s.reg r) else none

/-- The read accessor of `mem[a]` (10_state.md R45). -/
def State.hostReadMem (s : State) (a : Fin 50) : Option Word :=
  if s.hostMayRead then some (s.mem.read a.val) else none

/-- The read accessor of `cc` (10_state.md R45). -/
def State.hostReadCC (s : State) : Option (BitVec 3) :=
  if s.hostMayRead then some s.cc else none

/-- The read accessor of `state` (10_state.md R45). -/
def State.hostReadState (s : State) : FsmState := s.fsm

/-- The read accessor of `stop_cause` (10_state.md R45). -/
def State.hostReadStopCause (s : State) : StopCause := s.stopCause

/-- The read accessor of `fault_addr` and `fault_access`, which the host reads only where `stop_cause = ADDRESS_ERROR` (10_state.md R39, R45). -/
def State.hostReadFault (s : State) : Option (Word × Access) :=
  if s.stopCause = .addressError then some (s.faultAddr, s.faultAccess) else none

end Sys2Proof.Machine
end

