-- ==== Sys2Proof/Safety.lean ====
section
/-! DEFINITION. The terms in which claims about the machine are stated: what a step may leave as it was, how an error leaves the machine, the invariant of every state between steps, and a safe run. -/

namespace Sys2Proof.Machine

/-- Every general register is as before. -/
def SameRegs (s t : State) : Prop := ∀ r : Reg, t.reg r = s.reg r

/-- Every word of memory reads as before. -/
def SameMem (s t : State) : Prop := ∀ a : Nat, t.mem.read a = s.mem.read a

/-- The record of why the run stopped is as before: `stop_cause`, `fault_addr`, `fault_access`. -/
def SameRecord (s t : State) : Prop :=
  t.stopCause = s.stopCause ∧ t.faultAddr = s.faultAddr ∧ t.faultAccess = s.faultAccess

/-- Nothing was issued on the console port or the diagnostic port. -/
def SameTraces (s t : State) : Prop := t.console = s.console ∧ t.diag = s.diag

/-- `c` is what `SetCC(v)` writes: the sign of `v` read as a signed value (10_state.md R31). -/
def SignCC (v : Word) (c : BitVec 3) : Prop :=
  (v.toInt < 0 → c = 0b100#3) ∧ (v.toInt = 0 → c = 0b010#3) ∧ (0 < v.toInt → c = 0b001#3)

/-- `t` is `s` after a handler that wrote the result `v` to `x[dr]`, set `cc` from it and completed, and did nothing else. -/
def WritesResult (s t : State) (dr : Reg) (v : Word) : Prop :=
  t.reg dr = v ∧ SignCC v t.cc ∧ t.fsm = .fetch ∧
  (∀ r : Reg, r ≠ dr → t.reg r = s.reg r) ∧ t.pc = s.pc ∧ t.ir = s.ir ∧
  SameMem s t ∧ SameRecord s t ∧ SameTraces s t

/-- `t` is `s` after a handler that stored the word `v` at address `a` and completed, and did nothing else. -/
def StoresWord (s t : State) (a : Nat) (v : Word) : Prop :=
  t.mem.read a = v ∧ (∀ b : Nat, b ≠ a → t.mem.read b = s.mem.read b) ∧ t.fsm = .fetch ∧
  SameRegs s t ∧ t.cc = s.cc ∧ t.pc = s.pc ∧ t.ir = s.ir ∧ SameRecord s t ∧ SameTraces s t

/-- `t` is `s` after `raise AddressError(a, k)`: FAULTED, the record written, nothing else changed (40_cycle.md R127). -/
def RaisesAddressError (s t : State) (a : Word) (k : Access) : Prop :=
  t.fsm = .faulted ∧ t.stopCause = .addressError ∧ t.faultAddr = a ∧ t.faultAccess = k ∧
  SameRegs s t ∧ t.cc = s.cc ∧ t.pc = s.pc ∧ t.ir = s.ir ∧ SameMem s t ∧ SameTraces s t

/-- `t` is `s` after a handler that logged one soft error and completed, and did nothing else (60_exceptions.md R226). -/
def LogsSoftError (s t : State) (kind : SoftErrorKind) : Prop :=
  t.diag = s.diag ++ [SoftError.mk kind (s.pc - 1#16) s.ir] ∧ t.console = s.console ∧ t.fsm = .fetch ∧
  SameRegs s t ∧ t.cc = s.cc ∧ t.pc = s.pc ∧ t.ir = s.ir ∧ SameMem s t ∧ SameRecord s t

/-- The words `w` and `w₀`, each in `ir` as its handler finds it, execute from `s` to next states that agree on everything but `ir`. -/
def ExecutesAlike (w w₀ : Word) (s : State) : Prop :=
  ∃ t, exec (decode w) { s with ir := w } = .next t ∧ t.ir = w ∧
    exec (decode w₀) { s with ir := w₀ } = .next { t with ir := w₀ }

/-- As `ExecutesAlike`, for words that log one soft error: the event each logs holds its own word, and all else agrees. -/
def LogsAlike (w w₀ : Word) (s : State) (kind : SoftErrorKind) : Prop :=
  ∃ t, exec (decode w) { s with ir := w } = .next t ∧ t.ir = w ∧
    t.diag = s.diag ++ [SoftError.mk kind (s.pc - 1#16) w] ∧
    exec (decode w₀) { s with ir := w₀ } =
      .next { t with ir := w₀, diag := s.diag ++ [SoftError.mk kind (s.pc - 1#16) w₀] }

/-- The access of instruction `i` that raises `AddressError`, by the table of 60_exceptions.md R221, the first failing one where there are two (R228).
`pc` is the address of the instruction + 1. -/
def raisingPoint (i : Instr) (s : State) : Option (Word × Access) :=
  let pcRel (off : BitVec 9) : Word := s.pc + off.signExtend 16
  let baseOff (b : Reg) (off : BitVec 6) : Word := s.reg b + off.signExtend 16
  let pointer (off : BitVec 9) : Word := s.mem.read (pcRel off).toNat
  match i with
  | .ld _ off => if 50 ≤ (pcRel off).toNat then some (pcRel off, .load) else none
  | .ldr _ b off => if 50 ≤ (baseOff b off).toNat then some (baseOff b off, .load) else none
  | .str _ b off => if 50 ≤ (baseOff b off).toNat then some (baseOff b off, .store) else none
  | .ldi _ off =>
    if 50 ≤ (pcRel off).toNat then some (pcRel off, .load)
    else if 50 ≤ (pointer off).toNat then some (pointer off, .load) else none
  | .sti _ off =>
    if 50 ≤ (pcRel off).toNat then some (pcRel off, .load)
    else if 50 ≤ (pointer off).toNat then some (pointer off, .store) else none
  | .br _ _ => none
  | .addReg _ _ _ => none
  | .addImm _ _ _ => none
  | .andReg _ _ _ => none
  | .andImm _ _ _ => none
  | .not _ _ => none
  | .lea _ _ => none
  | .trapOut => none
  | .trapHalt => none
  | .trapInvalid _ => none
  | .invalid3 => none
  | .invalid4 => none
  | .invalid8 => none
  | .invalid12 => none
  | .invalid13 => none

/-- The register an instruction writes, which is also the one `SetCC` is called on: the seven writers of 10_state.md R21 and R32. -/
def destination (i : Instr) : Option Reg :=
  match i with
  | .addReg d _ _ => some d
  | .addImm d _ _ => some d
  | .andReg d _ _ => some d
  | .andImm d _ _ => some d
  | .not d _ => some d
  | .ld d _ => some d
  | .ldr d _ _ => some d
  | .ldi d _ => some d
  | .lea d _ => some d
  | .br _ _ => none
  | .str _ _ _ => none
  | .sti _ _ => none
  | .trapOut => none
  | .trapHalt => none
  | .trapInvalid _ => none
  | .invalid3 => none
  | .invalid4 => none
  | .invalid8 => none
  | .invalid12 => none
  | .invalid13 => none

/-- Exactly one of the three condition bits is set (10_state.md R30, R35). -/
abbrev OneHot (c : BitVec 3) : Prop := c = 0b100#3 ∨ c = 0b010#3 ∨ c = 0b001#3

/-- Between two steps the state machine is in none of the inner states of a pass (40_cycle.md R124). -/
abbrev BetweenSteps (f : FsmState) : Prop := f = .idle ∨ f = .fetch ∨ f = .halted ∨ f = .faulted

/-- `stop_cause` says HALT exactly in HALTED, ADDRESS_ERROR exactly in FAULTED, and a FAULTED block holds an address that is not below 50 (10_state.md R38, R39). -/
abbrev StopRecordHolds (s : State) : Prop :=
  (s.stopCause = .halt ↔ s.fsm = .halted) ∧ (s.stopCause = .addressError ↔ s.fsm = .faulted) ∧
  (s.fsm = .faulted → 50 ≤ s.faultAddr.toNat)

/-- The only values `pc` can come to hold: up to 305, or a branch target below 0, wrapped (41_branch.md R144). -/
abbrev PcInRange (p : Word) : Prop := p.toNat ≤ 305 ∨ 0xFF01 ≤ p.toNat

/-- Before `execute`, nothing has run: `pc` is 0 and both traces are empty (70_reset_and_hazards.md R251, R255). -/
abbrev IdleIsFresh (s : State) : Prop :=
  s.fsm = .idle → s.pc = 0#16 ∧ s.console = [] ∧ s.diag = []

/-- The invariant of every state between steps. -/
abbrev State.Inv (s : State) : Prop :=
  OneHot s.cc ∧ s.mem.wf ∧ BetweenSteps s.fsm ∧ StopRecordHolds s ∧ PcInRange s.pc ∧ IdleIsFresh s

/-- The states the machine and its host can bring about from reset: by steps, and by calls on the host control port between them. -/
inductive Reachable : State → Prop where
  | reset : Reachable State.reset
  | step {s t : State} : Reachable s → step s = .next t → Reachable t
  | call {s : State} (c : HostCall) : Reachable s → Reachable (s.hostCall c).2

/-- A run is safe while it has raised no `AddressError`, the one hard stop (60_exceptions.md R220). -/
abbrev State.Safe (s : State) : Prop := s.stopCause ≠ .addressError

end Sys2Proof.Machine
end

