-- ==== Sys2Proof/Certificates/Slice0/Obligations.lean ====
section
/-! DEFINITION. The statements for the provers, from the numbered rules of spec/.
A field written `op ++ a ++ b` lays the fields out from bit 15 down, as the formats of 30_encoding.md R97 do. -/

open Sys2Proof Sys2Proof.Machine

/-! ## Encoding -/

/-- Decoding the word of a well-formed instruction gives the instruction back (30_encoding.md R97, R99, R100). -/
def Obligations.DecodeEncodeRoundTrip : Prop :=
  ∀ i : Instr, i.wf = true → decode (encode i) = i

/-- Encoding what a word decodes to gives the word back, but for the bits the decoder ignores (30_encoding.md R98; the ignored bits of the opcodes 3, 4, 8, 12, 13 are those the opcode table lists). -/
def Obligations.EncodeDecodeKeepsReadBits : Prop :=
  ∀ w : Word, encode (decode w) &&& ~~~(decode w).ignoredMask = w &&& ~~~(decode w).ignoredMask

/-- Every word has the fixed bits of the opcode-table row of the instruction it decodes to (spec/opcode_table.json). -/
def Obligations.DecodedWordFitsTableRow : Prop :=
  ∀ w : Word, w &&& (decode w).tableMask = (decode w).tableMatch

/-- Every word decodes to a well-formed instruction: no word is undefined (30_encoding.md R102). -/
def Obligations.EveryWordDecodesWellFormed : Prop := ∀ w : Word, (decode w).wf = true

/-- 30_encoding.md R97, R99: what the words of each format decode to, for every value of every field, the ignored ones (`x`) included. -/
def Obligations.FormatsDecode : Prop :=
  (∀ (c : BitVec 3) (off : BitVec 9), decode (0b0000#4 ++ c ++ off) = .br c off) ∧
  (∀ (d a : BitVec 3) (x : BitVec 2) (b : BitVec 3),
    decode (0b0001#4 ++ d ++ a ++ 0b0#1 ++ x ++ b) = .addReg (Reg.ofBits d) (Reg.ofBits a) (Reg.ofBits b)) ∧
  (∀ (d a : BitVec 3) (imm : BitVec 5),
    decode (0b0001#4 ++ d ++ a ++ 0b1#1 ++ imm) = .addImm (Reg.ofBits d) (Reg.ofBits a) imm) ∧
  (∀ (d : BitVec 3) (off : BitVec 9), decode (0b0010#4 ++ d ++ off) = .ld (Reg.ofBits d) off) ∧
  (∀ x : BitVec 12, decode (0b0011#4 ++ x) = .invalid3) ∧
  (∀ x : BitVec 12, decode (0b0100#4 ++ x) = .invalid4) ∧
  (∀ (d a : BitVec 3) (x : BitVec 2) (b : BitVec 3),
    decode (0b0101#4 ++ d ++ a ++ 0b0#1 ++ x ++ b) = .andReg (Reg.ofBits d) (Reg.ofBits a) (Reg.ofBits b)) ∧
  (∀ (d a : BitVec 3) (imm : BitVec 5),
    decode (0b0101#4 ++ d ++ a ++ 0b1#1 ++ imm) = .andImm (Reg.ofBits d) (Reg.ofBits a) imm) ∧
  (∀ (d b : BitVec 3) (off : BitVec 6), decode (0b0110#4 ++ d ++ b ++ off) = .ldr (Reg.ofBits d) (Reg.ofBits b) off) ∧
  (∀ (r b : BitVec 3) (off : BitVec 6), decode (0b0111#4 ++ r ++ b ++ off) = .str (Reg.ofBits r) (Reg.ofBits b) off) ∧
  (∀ x : BitVec 12, decode (0b1000#4 ++ x) = .invalid8) ∧
  (∀ (d r : BitVec 3) (x : BitVec 6), decode (0b1001#4 ++ d ++ r ++ x) = .not (Reg.ofBits d) (Reg.ofBits r)) ∧
  (∀ (d : BitVec 3) (off : BitVec 9), decode (0b1010#4 ++ d ++ off) = .ldi (Reg.ofBits d) off) ∧
  (∀ (r : BitVec 3) (off : BitVec 9), decode (0b1011#4 ++ r ++ off) = .sti (Reg.ofBits r) off) ∧
  (∀ x : BitVec 12, decode (0b1100#4 ++ x) = .invalid12) ∧
  (∀ x : BitVec 12, decode (0b1101#4 ++ x) = .invalid13) ∧
  (∀ (d : BitVec 3) (off : BitVec 9), decode (0b1110#4 ++ d ++ off) = .lea (Reg.ofBits d) off) ∧
  (∀ (x : BitVec 4) (v : BitVec 8), decode (0b1111#4 ++ x ++ v) =
    if v = 0x21#8 then .trapOut else if v = 0x25#8 then .trapHalt else .trapInvalid v) ∧
  (∀ b : BitVec 3, (Reg.ofBits b).val = b.toNat)

/-- 30_encoding.md R98: the bits the formats call ignored have no effect on decoding or execution.
Each word executes with itself in `ir`, and the next states agree on everything but `ir` and, for an invalid vector, the word that the one logged event holds (44_trap.md R203, 60_exceptions.md R226). -/
def Obligations.IgnoredBitsHaveNoEffect : Prop :=
  (∀ (d a b : BitVec 3) (x : BitVec 2) (w w₀ : Word) (s : State),
    w = 0b0001#4 ++ d ++ a ++ 0b0#1 ++ x ++ b → w₀ = 0b0001#4 ++ d ++ a ++ 0b0#1 ++ 0b00#2 ++ b →
    decode w = decode w₀ ∧ ExecutesAlike w w₀ s) ∧
  (∀ (d a b : BitVec 3) (x : BitVec 2) (w w₀ : Word) (s : State),
    w = 0b0101#4 ++ d ++ a ++ 0b0#1 ++ x ++ b → w₀ = 0b0101#4 ++ d ++ a ++ 0b0#1 ++ 0b00#2 ++ b →
    decode w = decode w₀ ∧ ExecutesAlike w w₀ s) ∧
  (∀ (d r : BitVec 3) (x : BitVec 6) (w w₀ : Word) (s : State),
    w = 0b1001#4 ++ d ++ r ++ x → w₀ = 0b1001#4 ++ d ++ r ++ 0b000000#6 →
    decode w = decode w₀ ∧ ExecutesAlike w w₀ s) ∧
  (∀ (x : BitVec 4) (v : BitVec 8) (w w₀ : Word) (s : State),
    w = 0b1111#4 ++ x ++ v → w₀ = 0b1111#4 ++ 0b0000#4 ++ v →
    decode w = decode w₀ ∧ (v = 0x21#8 ∨ v = 0x25#8 → ExecutesAlike w w₀ s) ∧
    (v ≠ 0x21#8 → v ≠ 0x25#8 → LogsAlike w w₀ s .invalidTrap))

/-- 30_encoding.md R100: TRAP is decoded a second time, on its vector: OUT, HALT, or one of 254 invalid ones. -/
def Obligations.TrapIsDecodedOnItsVector : Prop :=
  (∀ (x : BitVec 4), decode (0b1111#4 ++ x ++ 0x21#8) = .trapOut) ∧
  (∀ (x : BitVec 4), decode (0b1111#4 ++ x ++ 0x25#8) = .trapHalt) ∧
  (∀ (x : BitVec 4) (v : BitVec 8), v ≠ 0x21#8 → v ≠ 0x25#8 → decode (0b1111#4 ++ x ++ v) = .trapInvalid v) ∧
  ((List.range 256).filter fun n => n ≠ 0x21 ∧ n ≠ 0x25).length = 254

/-- 30_encoding.md R96: the three sign extenders, their fill, their value and the rule's four examples. -/
def Obligations.SignExtenders : Prop :=
  (∀ f : BitVec 5, sext5 f = (if f.getLsbD 4 then 0b11111111111#11 else 0b00000000000#11) ++ f ∧
    ((sext5 f).toNat : Int) = f.toInt % 65536) ∧
  (∀ f : BitVec 6, sext6 f = (if f.getLsbD 5 then 0b1111111111#10 else 0b0000000000#10) ++ f ∧
    ((sext6 f).toNat : Int) = f.toInt % 65536) ∧
  (∀ f : BitVec 9, sext9 f = (if f.getLsbD 8 then 0b1111111#7 else 0b0000000#7) ++ f ∧
    ((sext9 f).toNat : Int) = f.toInt % 65536) ∧
  sext5 0b10000#5 = 0xFFF0#16 ∧ sext5 0b01111#5 = 0x000F#16 ∧ sext6 0b111111#6 = 0xFFFF#16 ∧
  sext9 0b100000000#9 = 0xFF00#16

/-- Words the spec decodes (95_test_vectors.md L2-1), written out bit by bit from the formats. -/
def Obligations.SpecWordsDecode : Prop :=
  decode 0b0000111000000101#16 = .br 0b111#3 5#9 ∧
  decode 0b0001011001000010#16 = .addReg 3 1 2 ∧
  decode 0b0001001011110000#16 = .addImm 1 3 0b10000#5 ∧
  decode 0b0101000001110000#16 = .andImm 0 1 0b10000#5 ∧
  decode 0b1001101000111111#16 = .not 5 0 ∧
  decode 0b0010100000000011#16 = .ld 4 3#9 ∧
  decode 0b0110110101000101#16 = .ldr 6 5 5#6 ∧
  decode 0b0111010001000010#16 = .str 2 1 2#6 ∧
  decode 0b1010100000001000#16 = .ldi 4 8#9 ∧
  decode 0b1011100000000111#16 = .sti 4 7#9 ∧
  decode 0b1110001111111110#16 = .lea 1 0b111111110#9 ∧
  decode 0b1111000000100001#16 = .trapOut ∧
  decode 0b1111000000100101#16 = .trapHalt ∧
  decode 0b1111000000100000#16 = .trapInvalid 0x20#8 ∧
  decode 0b0011000000000000#16 = .invalid3

/-! ## The step -/

/-- 40_cycle.md R121: below 50, FETCH puts the word at `pc` in `ir` and adds one to `pc`, without a wrap, and the pass goes on with the handler of that word, in the same step (log 5); at 50 or above, it raises `AddressError(pc, FETCH)` and `pc` and `ir` keep their values. -/
def Obligations.StepFetchesDecodesExecutes : Prop :=
  ∀ s : State, s.fsm = .fetch →
    (s.pc.toNat < 50 →
      step s = exec (decode (s.mem.read s.pc.toNat))
        { s with ir := s.mem.read s.pc.toNat, pc := s.pc + 1#16, fsm := .execute } ∧
      (s.pc + 1#16).toNat = s.pc.toNat + 1) ∧
    (50 ≤ s.pc.toNat → ∃ t, step s = .next t ∧ RaisesAddressError s t s.pc .fetch)

/-- In IDLE, HALTED and FAULTED, which only a host call leaves, a step changes nothing (40_cycle.md R120, 60_exceptions.md R237).
That the model takes such a step at all is its own choice, log 4. -/
def Obligations.StoppedStatesStay : Prop :=
  ∀ s : State, (s.fsm = .idle ∨ s.fsm = .halted ∨ s.fsm = .faulted) → step s = .next s

/-- From DECODE and EXECUTE, which never stand between steps, a step finishes the pass with the word in `ir` (40_cycle.md R122, R123).
The model's own choice, log 5. -/
def Obligations.UnfinishedPassFinishes : Prop :=
  ∀ s : State,
    (s.fsm = .decode → step s = exec (decode s.ir) { s with fsm := .execute }) ∧
    (s.fsm = .execute → step s = exec (decode s.ir) s)

/-- A word placed by `withFetchWord` is the one the next step runs, from reset on (70_reset_and_hazards.md R255; the placing is the model's own, log 7). -/
def Obligations.PlacedWordIsRunNext : Prop :=
  ∀ (s : State) (w : Nat), s.mem.wf → s.pc.toNat < 50 →
    ∃ m : Memory, m.read s.pc.toNat = BitVec.ofNat 16 w ∧
      (∀ a : Nat, a ≠ s.pc.toNat → m.read a = s.mem.read a) ∧
      decodeTableWord 16 w = some (decode (BitVec.ofNat 16 w)) ∧
      step (s.withFetchWord 16 w) = exec (decode (BitVec.ofNat 16 w))
        { s with mem := m, ir := BitVec.ofNat 16 w, pc := s.pc + 1#16, fsm := .execute }

/-- No step stops the model: every instruction, in every state, answers a next state, and so does every step (30_encoding.md R102, 60_exceptions.md R224, R232).
Four of its cases are the model's own: a step in a stopped state (log 4), a step from DECODE or EXECUTE (log 5), TRAP OUT, whose sink is taken to accept within the step (log 6), and the ill-formed `trapInvalid 0x21` and `trapInvalid 0x25` (log 15). -/
def Obligations.EveryStepAnswersANextState : Prop :=
  (∀ (i : Instr) (s : State), ∃ t, exec i s = .next t) ∧ (∀ s : State, ∃ t, step s = .next t)

/-- 40_cycle.md R130: the next state and the port transactions of a step depend only on the registers, `pc`, `cc` and memory: two states that agree on those step to states that agree on them, on `ir`, on the state machine, on the record of a stop if there is one, and issue the same events.
That the console sink never delays a step is the model's own choice, log 6. -/
def Obligations.StepDependsOnlyOnProgramState : Prop :=
  ∀ s₁ s₂ t₁ t₂ : State, s₁.fsm = .fetch → s₂.fsm = .fetch →
    SameRegs s₁ s₂ → s₂.pc = s₁.pc → s₂.cc = s₁.cc → SameMem s₁ s₂ → s₁.mem.wf → s₂.mem.wf →
    step s₁ = .next t₁ → step s₂ = .next t₂ →
    SameRegs t₁ t₂ ∧ t₂.pc = t₁.pc ∧ t₂.cc = t₁.cc ∧ SameMem t₁ t₂ ∧ t₂.fsm = t₁.fsm ∧
    (s₁.pc.toNat < 50 → t₂.ir = t₁.ir) ∧
    (t₁.fsm ≠ .fetch → t₂.stopCause = t₁.stopCause) ∧
    (t₁.fsm = .faulted → t₂.faultAddr = t₁.faultAddr ∧ t₂.faultAccess = t₁.faultAccess) ∧
    (∃ (outs : List Word) (errs : List SoftError),
      t₁.console = s₁.console ++ outs ∧ t₂.console = s₂.console ++ outs ∧
      t₁.diag = s₁.diag ++ errs ∧ t₂.diag = s₂.diag ++ errs)

/-! ## ADD, AND, NOT -/

/-- 42_alu.md R150: ADD, register mode: its words, its result, the wrapped signed sum, `cc` from it, and its frame. -/
def Obligations.AddRegister : Prop :=
  (∀ (d a : BitVec 3) (x : BitVec 2) (b : BitVec 3),
    decode (0b0001#4 ++ d ++ a ++ 0b0#1 ++ x ++ b) = .addReg (Reg.ofBits d) (Reg.ofBits a) (Reg.ofBits b)) ∧
  ∀ (s : State) (dr sr1 sr2 : Reg), ∃ t, exec (.addReg dr sr1 sr2) s = .next t ∧
    WritesResult s t dr (BitVec.ofInt 16 ((s.reg sr2).toInt + (s.reg sr1).toInt))

/-- 42_alu.md R151: ADD, immediate mode. -/
def Obligations.AddImmediate : Prop :=
  (∀ (d a : BitVec 3) (imm : BitVec 5),
    decode (0b0001#4 ++ d ++ a ++ 0b1#1 ++ imm) = .addImm (Reg.ofBits d) (Reg.ofBits a) imm) ∧
  ∀ (s : State) (dr sr1 : Reg) (imm : BitVec 5), ∃ t, exec (.addImm dr sr1 imm) s = .next t ∧
    WritesResult s t dr (BitVec.ofInt 16 (imm.toInt + (s.reg sr1).toInt))

/-- 42_alu.md R152: AND, register mode: its words, every bit of its result, `cc` from it, and its frame. -/
def Obligations.AndRegister : Prop :=
  (∀ (d a : BitVec 3) (x : BitVec 2) (b : BitVec 3),
    decode (0b0101#4 ++ d ++ a ++ 0b0#1 ++ x ++ b) = .andReg (Reg.ofBits d) (Reg.ofBits a) (Reg.ofBits b)) ∧
  ∀ (s : State) (dr sr1 sr2 : Reg), ∃ t, exec (.andReg dr sr1 sr2) s = .next t ∧
    ∃ v : Word, WritesResult s t dr v ∧
      ∀ k : Nat, k < 16 → v.getLsbD k = ((s.reg sr1).getLsbD k && (s.reg sr2).getLsbD k)

/-- 42_alu.md R153: AND, immediate mode: the bits above the fifth are ANDed with the sign bit of imm5. -/
def Obligations.AndImmediate : Prop :=
  (∀ (d a : BitVec 3) (imm : BitVec 5),
    decode (0b0101#4 ++ d ++ a ++ 0b1#1 ++ imm) = .andImm (Reg.ofBits d) (Reg.ofBits a) imm) ∧
  ∀ (s : State) (dr sr1 : Reg) (imm : BitVec 5), ∃ t, exec (.andImm dr sr1 imm) s = .next t ∧
    ∃ v : Word, WritesResult s t dr v ∧
      ∀ k : Nat, k < 16 → v.getLsbD k = ((s.reg sr1).getLsbD k && imm.getLsbD (min k 4))

/-- 42_alu.md R154: NOT: every bit of a copy of the source inverted, in place too, and a second NOT restores the value. -/
def Obligations.NotInverts : Prop :=
  (∀ (d r : BitVec 3) (x : BitVec 6), decode (0b1001#4 ++ d ++ r ++ x) = .not (Reg.ofBits d) (Reg.ofBits r)) ∧
  ∀ (s : State) (dr sr : Reg), ∃ t, exec (.not dr sr) s = .next t ∧
    (∃ v : Word, WritesResult s t dr v ∧ ∀ k : Nat, k < 16 → v.getLsbD k = !(s.reg sr).getLsbD k) ∧
    ∃ u, exec (.not dr dr) t = .next u ∧ u.reg dr = s.reg sr

/-- 42_alu.md R155, R156: the ALU's three functions as arithmetic on unsigned and on signed values, for any operands. -/
def Obligations.AluArithmetic : Prop :=
  ∀ a b : Word,
    (aluAdd a b).toNat = (a.toNat + b.toNat) % 65536 ∧
    ((aluAdd a b).toNat : Int) = (a.toInt + b.toInt) % 65536 ∧
    (aluNot a).toNat = 65535 - a.toNat ∧
    aluAnd a (aluNot a) = 0x0000#16 ∧ aluAnd a a = a ∧
    aluAdd (aluAdd a (aluNot b)) 1#16 = a - b

/-! ## Condition codes -/

/-- 10_state.md R31: `SetCC` writes N, Z or P by the sign of the value, and nothing else. -/
def Obligations.SetCCWritesTheSign : Prop :=
  ∀ (s : State) (v : Word), SignCC v (s.setCC v).cc ∧ OneHot (s.setCC v).cc ∧
    (s.setCC v) = { s with cc := (s.setCC v).cc }

/-- 10_state.md R32: the seven instructions that call `SetCC` do so on the value they write, LEA's address and LDR's word included; the others, and a faulting one, leave `cc` unchanged. -/
def Obligations.ConditionCodeWriters : Prop :=
  ∀ (i : Instr) (s t : State), exec i s = .next t →
    (∀ d : Reg, destination i = some d → t.fsm ≠ .faulted → SignCC (t.reg d) t.cc) ∧
    (destination i = none → t.cc = s.cc) ∧ (t.fsm = .faulted → t.cc = s.cc)

/-- 10_state.md R35: after reset, for each value of CC_RESET, and after every instruction, exactly one bit of `cc` is set; after an instruction that calls `SetCC` it is the sign of the value just written. -/
def Obligations.ConditionCodeIsOneHot : Prop :=
  (∀ (c : CcReset) (fa : Word) (fk : Access), OneHot (State.resetWith c fa fk).cc) ∧ OneHot State.reset.cc ∧
  (∀ (i : Instr) (s t : State), exec i s = .next t → OneHot s.cc → OneHot t.cc) ∧
  (∀ s t : State, step s = .next t → OneHot s.cc → OneHot t.cc) ∧
  (∀ (i : Instr) (d : Reg) (s t : State), exec i s = .next t → destination i = some d → t.fsm ≠ .faulted →
    OneHot t.cc ∧ SignCC (t.reg d) t.cc)

/-! ## BR -/

/-- 41_branch.md R140: BR's words, its test, its target, and its frame: `pc` is all it may change; it makes no check of the target, a target of 50 or more faults at the next fetch. -/
def Obligations.BranchOnCondition : Prop :=
  (∀ (c : BitVec 3) (off : BitVec 9), decode (0b0000#4 ++ c ++ off) = .br c off) ∧
  ∀ (s : State) (c : BitVec 3) (off : BitVec 9), ∃ t, exec (.br c off) s = .next t ∧
    ((∃ k : Nat, k < 3 ∧ c.getLsbD k = true ∧ s.cc.getLsbD k = true) →
      t.pc = BitVec.ofInt 16 ((s.pc.toNat : Int) + off.toInt)) ∧
    ((∀ k : Nat, k < 3 → c.getLsbD k = true → s.cc.getLsbD k = false) → t.pc = s.pc) ∧
    (50 ≤ t.pc.toNat → ∃ u, step t = .next u ∧ RaisesAddressError t u t.pc .fetch) ∧
    SameRegs s t ∧ t.cc = s.cc ∧ t.ir = s.ir ∧ t.fsm = .fetch ∧ SameMem s t ∧ SameRecord s t ∧ SameTraces s t

/-- 41_branch.md R141: BR with no condition bit is never taken, whatever `cc` holds, and changes nothing; the word 0x0000 is such a BR, with offset 0. -/
def Obligations.BranchOnNothingNeverTaken : Prop :=
  (∀ (s : State) (off : BitVec 9), exec (.br 0b000#3 off) s = .next { s with fsm := .fetch }) ∧
  decode 0x0000#16 = .br 0b000#3 0#9 ∧ ∀ a : Nat, State.reset.mem.read a = 0x0000#16

/-- 41_branch.md R142: BR with all three condition bits is always taken, since `cc` has one bit set. -/
def Obligations.BranchOnAllAlwaysTaken : Prop :=
  ∀ (s : State) (off : BitVec 9), OneHot s.cc →
    0b111#3 &&& s.cc ≠ 0b000#3 ∧ exec (.br 0b111#3 off) s = .next { s with pc := s.pc + off.signExtend 16, fsm := .fetch }

/-- 41_branch.md R143: the test is a bitwise AND of the condition with `cc`, not an equality: BRzp is taken on Z and on P, and not on N. -/
def Obligations.BranchTestIsAndNotEquality : Prop :=
  ∀ (s : State) (off : BitVec 9),
    (∀ c : BitVec 3, exec (.br c off) s =
      .next { s with pc := if c &&& s.cc = 0b000#3 then s.pc else s.pc + off.signExtend 16, fsm := .fetch }) ∧
    (s.cc = 0b010#3 ∨ s.cc = 0b001#3 →
      exec (.br 0b011#3 off) s = .next { s with pc := s.pc + off.signExtend 16, fsm := .fetch }) ∧
    (s.cc = 0b100#3 → exec (.br 0b011#3 off) s = .next { s with fsm := .fetch })

/-- The targets of a taken branch fetched from memory (41_branch.md R144, R140): the integer sum where it is not negative, at most 305; else it wraps to 0xFF01 or more; and a target of 50 or more faults at the next fetch, not in the BR. -/
def Obligations.BranchTargets : Prop :=
  ∀ (s t : State) (c : BitVec 3) (off : BitVec 9), 1 ≤ s.pc.toNat → s.pc.toNat ≤ 50 → c &&& s.cc ≠ 0b000#3 →
    exec (.br c off) s = .next t →
    (0 ≤ (s.pc.toNat : Int) + off.toInt → (t.pc.toNat : Int) = s.pc.toNat + off.toInt ∧ t.pc.toNat ≤ 305) ∧
    ((s.pc.toNat : Int) + off.toInt < 0 → (t.pc.toNat : Int) = s.pc.toNat + off.toInt + 65536 ∧ 0xFF01 ≤ t.pc.toNat) ∧
    t.fsm = .fetch ∧
    (50 ≤ t.pc.toNat → ∃ u, step t = .next u ∧ RaisesAddressError t u t.pc .fetch)

/-- A taken branch to itself, offset -1, loops for ever: after any number of steps the block is at the same BR, running (41_branch.md R144, 40_cycle.md R128). -/
def Obligations.SelfBranchNeverEnds : Prop :=
  ∀ (s : State) (c : BitVec 3) (n : Nat), s.fsm = .fetch → s.pc.toNat < 50 → c &&& s.cc ≠ 0b000#3 →
    decode (s.mem.read s.pc.toNat) = .br c 0b111111111#9 →
    ∃ t, Sys2Proof.core.run n s = .next t ∧ t.fsm = .fetch ∧ t.pc = s.pc ∧ SameRegs s t ∧ t.cc = s.cc ∧
      SameMem s t ∧ SameTraces s t

/-! ## Loads, stores, LEA -/

/-- 20_memory.md R65: the 16-bit adder and the check accept exactly the addresses the integer sums accept, and the same word; a pointer word is checked directly, unsigned. -/
def Obligations.AddressCalculatorIsExact : Prop :=
  (∀ (s : State) (off : BitVec 9), 1 ≤ s.pc.toNat → s.pc.toNat ≤ 50 →
    ((s.eaPcRel off).toNat < 50 ↔
      0 ≤ (s.pc.toNat : Int) + off.toInt ∧ (s.pc.toNat : Int) + off.toInt < 50) ∧
    ((s.eaPcRel off).toNat < 50 → ((s.eaPcRel off).toNat : Int) = s.pc.toNat + off.toInt)) ∧
  (∀ (s : State) (b : Reg) (off : BitVec 6),
    ((s.eaBaseOff b off).toNat < 50 ↔
      0 ≤ (s.reg b).toInt + off.toInt ∧ (s.reg b).toInt + off.toInt < 50) ∧
    ((s.eaBaseOff b off).toNat < 50 → ((s.eaBaseOff b off).toNat : Int) = (s.reg b).toInt + off.toInt)) ∧
  (∀ (s : State) (p : Word), ((s.memRead p).isSome = true ↔ p.toNat < 50) ∧
    (p.toNat < 50 → s.memRead p = some (s.mem.read p.toNat)))

/-- 43_load_store.md R170: LD: its words, its result where the address is below 50, its fault where it is not. -/
def Obligations.LoadPcRelative : Prop :=
  (∀ (d : BitVec 3) (off : BitVec 9), decode (0b0010#4 ++ d ++ off) = .ld (Reg.ofBits d) off) ∧
  ∀ (s : State) (dr : Reg) (off : BitVec 9),
    s.eaPcRel off = s.pc + off.signExtend 16 ∧
    ((s.eaPcRel off).toNat < 50 → ∃ t, exec (.ld dr off) s = .next t ∧
      WritesResult s t dr (s.mem.read (s.eaPcRel off).toNat)) ∧
    (50 ≤ (s.eaPcRel off).toNat → ∃ t, exec (.ld dr off) s = .next t ∧
      RaisesAddressError s t (s.eaPcRel off) .load)

/-- 43_load_store.md R171: LDR: its words, its result and `cc` from it, its fault. -/
def Obligations.LoadBaseOffset : Prop :=
  (∀ (d b : BitVec 3) (off : BitVec 6), decode (0b0110#4 ++ d ++ b ++ off) = .ldr (Reg.ofBits d) (Reg.ofBits b) off) ∧
  ∀ (s : State) (dr b : Reg) (off : BitVec 6),
    s.eaBaseOff b off = s.reg b + off.signExtend 16 ∧
    ((s.eaBaseOff b off).toNat < 50 → ∃ t, exec (.ldr dr b off) s = .next t ∧
      WritesResult s t dr (s.mem.read (s.eaBaseOff b off).toNat)) ∧
    (50 ≤ (s.eaBaseOff b off).toNat → ∃ t, exec (.ldr dr b off) s = .next t ∧
      RaisesAddressError s t (s.eaBaseOff b off) .load)

/-- 43_load_store.md R172: STR: its words, the word it stores and where, its frame, its fault.
The canonical form of memory is a premise, which every step keeps (StepKeepsInvariant). -/
def Obligations.StoreBaseOffset : Prop :=
  (∀ (r b : BitVec 3) (off : BitVec 6), decode (0b0111#4 ++ r ++ b ++ off) = .str (Reg.ofBits r) (Reg.ofBits b) off) ∧
  ∀ (s : State) (sr b : Reg) (off : BitVec 6), s.mem.wf →
    s.eaBaseOff b off = s.reg b + off.signExtend 16 ∧
    ((s.eaBaseOff b off).toNat < 50 → ∃ t, exec (.str sr b off) s = .next t ∧
      StoresWord s t (s.eaBaseOff b off).toNat (s.reg sr)) ∧
    (50 ≤ (s.eaBaseOff b off).toNat → ∃ t, exec (.str sr b off) s = .next t ∧
      RaisesAddressError s t (s.eaBaseOff b off) .store)

/-- 43_load_store.md R173: LDI: its words, its result through the pointer read unsigned, its two faults. -/
def Obligations.LoadIndirect : Prop :=
  (∀ (d : BitVec 3) (off : BitVec 9), decode (0b1010#4 ++ d ++ off) = .ldi (Reg.ofBits d) off) ∧
  ∀ (s : State) (dr : Reg) (off : BitVec 9) (pa p : Word),
    pa = s.eaPcRel off → p = s.mem.read pa.toNat →
    pa = s.pc + off.signExtend 16 ∧
    (pa.toNat < 50 → p.toNat < 50 → ∃ t, exec (.ldi dr off) s = .next t ∧
      WritesResult s t dr (s.mem.read p.toNat)) ∧
    (50 ≤ pa.toNat → ∃ t, exec (.ldi dr off) s = .next t ∧ RaisesAddressError s t pa .load) ∧
    (pa.toNat < 50 → 50 ≤ p.toNat → ∃ t, exec (.ldi dr off) s = .next t ∧ RaisesAddressError s t p .load)

/-- 43_load_store.md R174: STI: its words, the word it stores at the pointer, its frame, its two faults. -/
def Obligations.StoreIndirect : Prop :=
  (∀ (r : BitVec 3) (off : BitVec 9), decode (0b1011#4 ++ r ++ off) = .sti (Reg.ofBits r) off) ∧
  ∀ (s : State) (sr : Reg) (off : BitVec 9) (pa p : Word), s.mem.wf →
    pa = s.eaPcRel off → p = s.mem.read pa.toNat →
    pa = s.pc + off.signExtend 16 ∧
    (pa.toNat < 50 → p.toNat < 50 → ∃ t, exec (.sti sr off) s = .next t ∧
      StoresWord s t p.toNat (s.reg sr)) ∧
    (50 ≤ pa.toNat → ∃ t, exec (.sti sr off) s = .next t ∧ RaisesAddressError s t pa .load) ∧
    (pa.toNat < 50 → 50 ≤ p.toNat → ∃ t, exec (.sti sr off) s = .next t ∧ RaisesAddressError s t p .store)

/-- 43_load_store.md R175: LEA: its words, the address as its result, modulo 2^16, and `cc` from it; it never faults. -/
def Obligations.LoadEffectiveAddress : Prop :=
  (∀ (d : BitVec 3) (off : BitVec 9), decode (0b1110#4 ++ d ++ off) = .lea (Reg.ofBits d) off) ∧
  ∀ (s : State) (dr : Reg) (off : BitVec 9), ∃ t, exec (.lea dr off) s = .next t ∧
    WritesResult s t dr (BitVec.ofInt 16 ((s.pc.toNat : Int) + off.toInt))

/-- 20_memory.md R62, R63: a read below 50 gives the word there and changes nothing, a write below 50 changes that word alone; at 50 or above each raises `AddressError` with the address and its kind of access, and memory is unchanged. -/
def Obligations.MemoryPort : Prop :=
  ∀ (s : State) (a v : Word) (k : Word → State), s.mem.wf →
    (a.toNat < 50 →
      s.memRead a = some (s.mem.read a.toNat) ∧ s.loadThen a k = k (s.mem.read a.toNat) ∧
      ∃ m : Memory, s.memWrite a v = some { s with mem := m } ∧ s.storeWord a v = { s with mem := m, fsm := .fetch } ∧
        m.wf ∧ m.read a.toNat = v ∧ ∀ b : Nat, b ≠ a.toNat → m.read b = s.mem.read b) ∧
    (50 ≤ a.toNat →
      s.memRead a = none ∧ RaisesAddressError s (s.loadThen a k) a .load ∧
      s.memWrite a v = none ∧ RaisesAddressError s (s.storeWord a v) a .store ∧
      (s.fsm = .fetch → s.pc = a → ∃ t, step s = .next t ∧ RaisesAddressError s t a .fetch))

/-- A store by STR or STI to the word about to be fetched is what the next step fetches and runs (20_memory.md R77, R74). -/
def Obligations.StoreIsSeenByTheNextFetch : Prop :=
  ∀ s t : State, s.mem.wf → s.pc.toNat < 50 →
    (∀ (sr b : Reg) (off : BitVec 6), s.eaBaseOff b off = s.pc → exec (.str sr b off) s = .next t →
      step t = exec (decode (s.reg sr)) { t with ir := s.reg sr, pc := t.pc + 1#16, fsm := .execute }) ∧
    (∀ (sr : Reg) (off : BitVec 9), (s.eaPcRel off).toNat < 50 → s.mem.read (s.eaPcRel off).toNat = s.pc →
      exec (.sti sr off) s = .next t →
      step t = exec (decode (s.reg sr)) { t with ir := s.reg sr, pc := t.pc + 1#16, fsm := .execute })

/-! ## TRAP and the invalid opcodes -/

/-- OUT (44_trap.md R201, 10_state.md R42): its words, the one `Out(x[0])` transaction, all 16 bits, its frame, and the Latin-1 character shown for a value below 256.
That the sink accepts the value within the step is the model's own choice, log 6. -/
def Obligations.TrapOutDelivers : Prop :=
  (∀ x : BitVec 4, decode (0b1111#4 ++ x ++ 0b00100001#8) = .trapOut) ∧
  (∀ s : State, ∃ t, exec .trapOut s = .next t ∧ t.console = s.console ++ [s.reg 0] ∧ t.diag = s.diag ∧
    t.fsm = .fetch ∧ SameRegs s t ∧ t.cc = s.cc ∧ t.pc = s.pc ∧ t.ir = s.ir ∧ SameMem s t ∧ SameRecord s t) ∧
  (∀ v : Word, v.toNat < 256 → consoleCodePoint v = v.toNat)

/-- 44_trap.md R202: HALT: its words, HALTED with `stop_cause` HALT, everything else as it was; and no other instruction reaches HALTED. -/
def Obligations.TrapHaltStops : Prop :=
  (∀ x : BitVec 4, decode (0b1111#4 ++ x ++ 0b00100101#8) = .trapHalt) ∧
  (∀ s : State, ∃ t, exec .trapHalt s = .next t ∧ t.fsm = .halted ∧ t.stopCause = .halt ∧ t.executeReturn = some .halt ∧
    SameRegs s t ∧ t.cc = s.cc ∧ t.pc = s.pc ∧ t.ir = s.ir ∧ SameMem s t ∧ SameTraces s t ∧
    t.faultAddr = s.faultAddr ∧ t.faultAccess = s.faultAccess) ∧
  (∀ (i : Instr) (s t : State), exec i s = .next t → t.fsm = .halted → i = .trapHalt)

/-- 44_trap.md R203: TRAP with another vector: its words, one INVALID_TRAP event and nothing else, and the text logged. -/
def Obligations.TrapInvalidVectorIsLogged : Prop :=
  (∀ (x : BitVec 4) (v : BitVec 8), v ≠ 0x21#8 → v ≠ 0x25#8 → decode (0b1111#4 ++ x ++ v) = .trapInvalid v) ∧
  (∀ (v : BitVec 8) (s : State), v ≠ 0x21#8 → v ≠ 0x25#8 →
    ∃ t, exec (.trapInvalid v) s = .next t ∧ LogsSoftError s t .invalidTrap) ∧
  SoftErrorKind.invalidTrap.text = "invalid trap"

/-- 40_cycle.md R126: a word of opcode 3, 4, 8, 12 or 13: one INVALID_INSTRUCTION event and nothing else. -/
def Obligations.InvalidOpcodeIsLogged : Prop :=
  (∀ x : BitVec 12, decode (0b0011#4 ++ x) = .invalid3 ∧ decode (0b0100#4 ++ x) = .invalid4 ∧
    decode (0b1000#4 ++ x) = .invalid8 ∧ decode (0b1100#4 ++ x) = .invalid12 ∧ decode (0b1101#4 ++ x) = .invalid13) ∧
  (∀ (i : Instr) (s : State), i = .invalid3 ∨ i = .invalid4 ∨ i = .invalid8 ∨ i = .invalid12 ∨ i = .invalid13 →
    ∃ t, exec i s = .next t ∧ LogsSoftError s t .invalidInstruction) ∧
  SoftErrorKind.invalidInstruction.text = "invalid instruction"

/-! ## Errors and stops -/

/-- 60_exceptions.md R221: the raising points: each instruction raises `AddressError` exactly where the table says, with the address and the access it says, and FETCH at a `pc` of 50 or more; the codes of the accesses. -/
def Obligations.AddressErrorRaisingPoints : Prop :=
  (∀ (i : Instr) (s : State), ∃ t, exec i s = .next t ∧
    (∀ a k, raisingPoint i s = some (a, k) → 50 ≤ a.toNat ∧ RaisesAddressError s t a k) ∧
    (raisingPoint i s = none → t.fsm ≠ .faulted ∧ t.faultAddr = s.faultAddr ∧ t.faultAccess = s.faultAccess)) ∧
  (∀ s : State, s.fsm = .fetch → 50 ≤ s.pc.toNat → ∃ t, step s = .next t ∧ RaisesAddressError s t s.pc .fetch) ∧
  (∀ s t : State, s.fsm = .fetch → s.pc.toNat < 50 → step s = .next t → t.fsm = .faulted → t.faultAccess ≠ .fetch) ∧
  accessCode .fetch = 0 ∧ accessCode .load = 1 ∧ accessCode .store = 2

/-- 60_exceptions.md R223: `AddressError` is precise: the faulting step changes no register, no `cc` and no memory word and issues nothing; `pc` is the fetch address for a FETCH fault and the instruction's address + 1 otherwise; no later instruction runs. -/
def Obligations.AddressErrorIsPrecise : Prop :=
  ∀ s t : State, s.fsm = .fetch → step s = .next t → t.fsm = .faulted →
    SameRegs s t ∧ t.cc = s.cc ∧ SameMem s t ∧ SameTraces s t ∧
    t.stopCause = .addressError ∧ 50 ≤ t.faultAddr.toNat ∧
    (t.faultAccess = .fetch → t.pc = s.pc ∧ t.faultAddr = s.pc ∧ t.ir = s.ir) ∧
    (t.faultAccess ≠ .fetch → s.pc.toNat < 50 ∧ t.pc = s.pc + 1#16 ∧ t.ir = s.mem.read s.pc.toNat) ∧
    ∀ u, step t = .next u → u = t

/-- The only entry to HALTED is TRAP HALT, the only entry to FAULTED an `AddressError`, and otherwise a pass ends in FETCH (40_cycle.md R120, R124, R125, R129). -/
def Obligations.PassEndsInFetchHaltedOrFaulted : Prop :=
  ∀ s t : State, s.fsm = .fetch → step s = .next t →
    (t.fsm = .fetch ∧ t.stopCause = s.stopCause ∧ t.executeReturn = none) ∨
    (t.fsm = .halted ∧ t.stopCause = .halt ∧ t.executeReturn = some .halt ∧ s.pc.toNat < 50 ∧
      decode (s.mem.read s.pc.toNat) = .trapHalt ∧ t.pc = s.pc + 1#16) ∨
    (t.fsm = .faulted ∧ t.stopCause = .addressError ∧
      t.executeReturn = some (.addressError t.faultAddr t.faultAccess) ∧ 50 ≤ t.faultAddr.toNat)

/-! ## What may change each piece of state -/

/-- 10_state.md R26: `pc` changes only by the increment of a fetch, a taken BR, and reset. -/
def Obligations.PcChangesOnlyAtThreePoints : Prop :=
  (∀ (i : Instr) (s t : State), exec i s = .next t → t.pc = s.pc ∨
    ∃ (c : BitVec 3) (off : BitVec 9), i = .br c off ∧ c &&& s.cc ≠ 0b000#3 ∧ t.pc = s.pc + off.signExtend 16) ∧
  (∀ s t : State, s.fsm = .fetch → s.pc.toNat < 50 → step s = .next t → t.pc = s.pc + 1#16 ∨
    ∃ (c : BitVec 3) (off : BitVec 9), decode (s.mem.read s.pc.toNat) = .br c off ∧ c &&& s.cc ≠ 0b000#3 ∧
      t.pc = s.pc + 1#16 + off.signExtend 16) ∧
  (∀ s t : State, s.fsm = .fetch → 50 ≤ s.pc.toNat → step s = .next t → t.pc = s.pc) ∧
  (∀ (s : State) (c : HostCall), (s.hostCall c).2.pc = s.pc ∨ (c = .reset ∧ (s.hostCall c).2.pc = 0x0000#16))

/-- 20_memory.md R79: during a run memory is written only by STR and STI, at their address and with their register, of a handler and of a whole step, whose handler has `pc` one higher; the host writes it only by `loadWord` in IDLE, and by reset. -/
def Obligations.MemoryWrittenOnlyByStores : Prop :=
  (∀ (i : Instr) (s t : State) (a : Nat), s.mem.wf → exec i s = .next t → t.mem.read a ≠ s.mem.read a →
    (∃ (sr b : Reg) (off : BitVec 6), i = .str sr b off ∧ a = (s.eaBaseOff b off).toNat ∧ t.mem.read a = s.reg sr) ∨
    (∃ (sr : Reg) (off : BitVec 9), i = .sti sr off ∧ a = (s.mem.read (s.eaPcRel off).toNat).toNat ∧
      t.mem.read a = s.reg sr)) ∧
  (∀ (s t : State) (a : Nat), s.mem.wf → s.fsm = .fetch → step s = .next t → t.mem.read a ≠ s.mem.read a →
    (∃ (sr b : Reg) (off : BitVec 6), decode (s.mem.read s.pc.toNat) = .str sr b off ∧
      a = (s.eaBaseOff b off).toNat ∧ t.mem.read a = s.reg sr) ∨
    (∃ (sr : Reg) (off : BitVec 9), decode (s.mem.read s.pc.toNat) = .sti sr off ∧
      a = (s.mem.read (State.eaPcRel { s with pc := s.pc + 1#16 } off).toNat).toNat ∧ t.mem.read a = s.reg sr)) ∧
  (∀ (s : State) (c : HostCall) (a : Nat), s.mem.wf → (s.hostCall c).2.mem.read a ≠ s.mem.read a →
    c = .reset ∨ (s.fsm = .idle ∧ ∃ w : Word, c = .loadWord (a : Int) w ∧ (s.hostCall c).2.mem.read a = w))

/-- Each of the nine opcode-table rows that write a register writes the one its DR field names and no other; no other instruction writes any (10_state.md R21, R24). -/
def Obligations.RegistersWrittenOnlyByDestination : Prop :=
  ∀ (i : Instr) (s t : State), exec i s = .next t →
    (∀ r : Reg, destination i ≠ some r → t.reg r = s.reg r) ∧ (t.fsm = .faulted → SameRegs s t)

/-- 70_reset_and_hazards.md R251: the traces begin empty at reset and grow only by appending, by at most one event a step, and only during a run (the steps of the stopped states are the model's own, log 4). -/
def Obligations.TracesOnlyGrow : Prop :=
  State.reset.console = [] ∧ State.reset.diag = [] ∧
  (∀ s t : State, step s = .next t →
    ∃ (outs : List Word) (errs : List SoftError), t.console = s.console ++ outs ∧ t.diag = s.diag ++ errs ∧
      outs.length + errs.length ≤ 1) ∧
  (∀ s t : State, (s.fsm = .idle ∨ s.fsm = .halted ∨ s.fsm = .faulted) → step s = .next t → SameTraces s t) ∧
  (∀ (s : State) (c : HostCall), SameTraces s (s.hostCall c).2 ∨
    (c = .reset ∧ (s.hostCall c).2.console = [] ∧ (s.hostCall c).2.diag = []))

/-! ## The invariant -/

/-- Every step keeps the invariant of the states between steps (10_state.md R35, R38, R39; 20_memory.md R60; 40_cycle.md R124; 41_branch.md R144).
The canonical form of memory is the model's own, log 3. -/
def Obligations.StepKeepsInvariant : Prop :=
  ∀ s t : State, s.Inv → step s = .next t → t.Inv

/-- The invariant holds after reset, whatever values the open parameters have. -/
def Obligations.ResetMeetsInvariant : Prop :=
  (∀ (c : CcReset) (fa : Word) (fk : Access), (State.resetWith c fa fk).Inv) ∧ State.reset.Inv

/-- Every call on the host control port keeps the invariant (10_state.md R44). -/
def Obligations.HostCallsKeepInvariant : Prop :=
  ∀ (s : State) (c : HostCall), s.Inv → (s.hostCall c).2.Inv

/-- Every state the machine and its host can bring about from reset, with whatever program the host loads, meets the invariant.
That the host's calls stand beside the step, and that a program comes to run by them, is log 7. -/
def Obligations.ReachableStatesMeetInvariant : Prop := ∀ s : State, Reachable s → s.Inv

/-! ## Reset and the host -/

/-- 70_reset_and_hazards.md R250: the reset values the spec gives, for each value of the parameters it leaves open, and that `reset` restores them from whatever state. -/
def Obligations.ResetValues : Prop :=
  (∀ (c : CcReset) (fa : Word) (fk : Access) (r : Reg) (a : Nat),
    (State.resetWith c fa fk).reg r = BitVec.ofNat 16 r.val ∧ (State.resetWith c fa fk).pc = 0x0000#16 ∧
    (State.resetWith c fa fk).ir = 0x0000#16 ∧ OneHot (State.resetWith c fa fk).cc ∧
    (State.resetWith c fa fk).fsm = .idle ∧ (State.resetWith c fa fk).stopCause = .none ∧
    (State.resetWith c fa fk).mem.read a = 0x0000#16 ∧
    (State.resetWith c fa fk).console = [] ∧ (State.resetWith c fa fk).diag = []) ∧
  (∀ b : BitVec 3, OneHot b ↔ ∃ c : CcReset, (State.resetWith c 0#16 .fetch).cc = b) ∧
  (∃ (c : CcReset) (fa : Word) (fk : Access), State.reset = State.resetWith c fa fk) ∧
  (∀ s : State, ∃ (c : CcReset) (fa : Word) (fk : Access), s.hostCall .reset = (.accepted, State.resetWith c fa fk))

/-- 70_reset_and_hazards.md R256 and 60_exceptions.md R225: `loadWord` writes one word in IDLE, answers `AddressError` for any other address, and in any other state has no effect and is refused. -/
def Obligations.LoadWordCall : Prop :=
  ∀ (s : State) (a : Int) (w : Word), s.mem.wf →
    (s.fsm = .idle → 0 ≤ a → a < 50 → ∃ m : Memory,
      s.hostCall (.loadWord a w) = (.accepted, { s with mem := m }) ∧ m.wf ∧ m.read a.toNat = w ∧
      ∀ b : Nat, b ≠ a.toNat → m.read b = s.mem.read b) ∧
    (s.fsm = .idle → (a < 0 ∨ 50 ≤ a) → s.hostCall (.loadWord a w) = (.addressError, s)) ∧
    (s.fsm ≠ .idle → (s.hostCall (.loadWord a w)).2 = s ∧ (s.hostCall (.loadWord a w)).1 ≠ .accepted ∧
      (0 ≤ a → a < 50 → (s.hostCall (.loadWord a w)).1 = .refused))

/-- 70_reset_and_hazards.md R257: `execute` is accepted only in IDLE, where it starts the run; elsewhere it is refused, and after a `reset` it is accepted again, with `pc` 0. -/
def Obligations.ExecuteCall : Prop :=
  ∀ s : State,
    (s.fsm = .idle → s.hostCall .execute = (.accepted, { s with fsm := .fetch })) ∧
    (s.fsm ≠ .idle → s.hostCall .execute = (.refused, s)) ∧
    (s.hostCall .reset).2.hostCall .execute = (.accepted, { (s.hostCall .reset).2 with fsm := .fetch }) ∧
    (s.hostCall .reset).2.pc = 0x0000#16

/-- The read accessors answer the registers, memory and `cc` in IDLE, HALTED and FAULTED and not during a run, and the fault record where the stop was an `AddressError` (10_state.md R45, R39, 60_exceptions.md R237).
That the accessors answer nothing during a run is the model's own reading, log 16. -/
def Obligations.ReadAccessors : Prop :=
  ∀ (s : State) (r : Reg) (a : Fin 50),
    (s.fsm = .idle ∨ s.fsm = .halted ∨ s.fsm = .faulted →
      s.hostReadReg r = some (s.reg r) ∧ s.hostReadMem a = some (s.mem.read a.val) ∧ s.hostReadCC = some s.cc) ∧
    (s.fsm = .fetch ∨ s.fsm = .decode ∨ s.fsm = .execute →
      s.hostReadReg r = none ∧ s.hostReadMem a = none ∧ s.hostReadCC = none) ∧
    s.hostReadState = s.fsm ∧ s.hostReadStopCause = s.stopCause ∧
    (s.stopCause = .addressError → s.hostReadFault = some (s.faultAddr, s.faultAccess)) ∧
    StopCause.none.code = 0 ∧ StopCause.halt.code = 1 ∧ StopCause.addressError.code = 2
end

