-- ==== Sys2Proof/Laws/Decode.lean ====
section
/-! SUPPORT. The fields of words built from fields, format by format (30_encoding.md R97), and register numbers read back from their 3 bits. -/

namespace Sys2Proof

@[simp] theorem Reg.ofBits_toBits (r : Reg) : Reg.ofBits (Reg.toBits r) = r := by
  revert r; decide

@[simp] theorem Reg.toBits_ofBits (b : BitVec 3) : Reg.toBits (Reg.ofBits b) = b := by
  revert b; decide

/-- The low field of a concatenation. -/
theorem extract_low {m n : Nat} (a : BitVec m) (b : BitVec n) (l : Nat) (h : l ≤ n) :
    (a ++ b).extractLsb' 0 l = b.extractLsb' 0 l := by
  ext i hi
  simp [BitVec.getLsbD_append, show i < n by omega]

/-- A field above the low part of a concatenation lies in its high part. -/
theorem extract_high {m n : Nat} (a : BitVec m) (b : BitVec n) (k l : Nat) (h : n ≤ k) :
    (a ++ b).extractLsb' k l = a.extractLsb' (k - n) l := by
  ext i hi
  simp [BitVec.getLsbD_append, show ¬ k + i < n by omega, show k + i - n = k - n + i by omega]

/-- A field within the low part of a concatenation. -/
theorem extract_within {m n : Nat} (a : BitVec m) (b : BitVec n) (k l : Nat) (h : k + l ≤ n) :
    (a ++ b).extractLsb' k l = b.extractLsb' k l := by
  ext i hi
  simp [BitVec.getLsbD_append, show k + i < n by omega]

/-- All of a bit vector as a field of itself. -/
@[simp] theorem extract_all {n : Nat} (a : BitVec n) : a.extractLsb' 0 n = a := by
  ext i hi
  simp

/-- A bit above the low part of a concatenation lies in its high part. -/
theorem bit_high {m n : Nat} (a : BitVec m) (b : BitVec n) (k : Nat) (h : n ≤ k) :
    (a ++ b).getLsbD k = a.getLsbD (k - n) := by
  simp [BitVec.getLsbD_append, show ¬ k < n by omega]

/-- A bit within the low part of a concatenation. -/
theorem bit_low {m n : Nat} (a : BitVec m) (b : BitVec n) (k : Nat) (h : k < n) :
    (a ++ b).getLsbD k = b.getLsbD k := by
  simp [BitVec.getLsbD_append, h]

@[simp] theorem Word.bit_and (v w : Word) (k : Nat) :
    Word.bit (v &&& w) k = (Word.bit v k && Word.bit w k) := BitVec.getLsbD_and

@[simp] theorem Word.bit_ofNat (n k : Nat) :
    Word.bit (BitVec.ofNat 16 n) k = (decide (k < 16) && decide (n / 2 ^ k % 2 = 1)) := by
  rw [← Nat.testBit_eq_decide_div_mod_eq]
  exact BitVec.getLsbD_ofNat ..

/-- Two words are equal if their bits are, one by one. -/
theorem Word.ext_bit (v w : Word) (h : ∀ k : Fin 16, Word.bit v k = Word.bit w k) : v = w :=
  BitVec.eq_of_getLsbD_eq fun k hk => h ⟨k, hk⟩

section Pcr

variable (o : BitVec 4) (r : BitVec 3) (f : BitVec 9)

@[simp] theorem bit15_Pcr : Word.bit (o ++ r ++ f) 15 = o.getLsbD 3 :=
  (bit_high _ _ 15 (by decide)).trans (bit_high _ _ 6 (by decide))

@[simp] theorem bit14_Pcr : Word.bit (o ++ r ++ f) 14 = o.getLsbD 2 :=
  (bit_high _ _ 14 (by decide)).trans (bit_high _ _ 5 (by decide))

@[simp] theorem bit13_Pcr : Word.bit (o ++ r ++ f) 13 = o.getLsbD 1 :=
  (bit_high _ _ 13 (by decide)).trans (bit_high _ _ 4 (by decide))

@[simp] theorem bit12_Pcr : Word.bit (o ++ r ++ f) 12 = o.getLsbD 0 :=
  (bit_high _ _ 12 (by decide)).trans (bit_high _ _ 3 (by decide))

@[simp] theorem f11_9_Pcr : Word.f11_9 (o ++ r ++ f) = r :=
  (extract_high _ _ 9 3 (by decide)).trans ((extract_within _ _ 0 3 (by decide)).trans (extract_all _))

@[simp] theorem pcOffset9_Pcr : Word.pcOffset9 (o ++ r ++ f) = f :=
  (extract_within _ _ 0 9 (by decide)).trans (extract_all _)

end Pcr

section Bof

variable (o : BitVec 4) (r : BitVec 3) (b : BitVec 3) (f : BitVec 6)

@[simp] theorem bit15_Bof : Word.bit (o ++ r ++ b ++ f) 15 = o.getLsbD 3 :=
  (bit_high _ _ 15 (by decide)).trans ((bit_high _ _ 9 (by decide)).trans (bit_high _ _ 6 (by decide)))

@[simp] theorem bit14_Bof : Word.bit (o ++ r ++ b ++ f) 14 = o.getLsbD 2 :=
  (bit_high _ _ 14 (by decide)).trans ((bit_high _ _ 8 (by decide)).trans (bit_high _ _ 5 (by decide)))

@[simp] theorem bit13_Bof : Word.bit (o ++ r ++ b ++ f) 13 = o.getLsbD 1 :=
  (bit_high _ _ 13 (by decide)).trans ((bit_high _ _ 7 (by decide)).trans (bit_high _ _ 4 (by decide)))

@[simp] theorem bit12_Bof : Word.bit (o ++ r ++ b ++ f) 12 = o.getLsbD 0 :=
  (bit_high _ _ 12 (by decide)).trans ((bit_high _ _ 6 (by decide)).trans (bit_high _ _ 3 (by decide)))

@[simp] theorem f11_9_Bof : Word.f11_9 (o ++ r ++ b ++ f) = r :=
  (extract_high _ _ 9 3 (by decide)).trans ((extract_high _ _ 3 3 (by decide)).trans ((extract_within _ _ 0 3 (by decide)).trans (extract_all _)))

@[simp] theorem f8_6_Bof : Word.f8_6 (o ++ r ++ b ++ f) = b :=
  (extract_high _ _ 6 3 (by decide)).trans ((extract_within _ _ 0 3 (by decide)).trans (extract_all _))

@[simp] theorem offset6_Bof : Word.offset6 (o ++ r ++ b ++ f) = f :=
  (extract_within _ _ 0 6 (by decide)).trans (extract_all _)

end Bof

section Opi

variable (o : BitVec 4) (r : BitVec 3) (a : BitVec 3) (m : BitVec 1) (i : BitVec 5)

@[simp] theorem bit15_Opi : Word.bit (o ++ r ++ a ++ m ++ i) 15 = o.getLsbD 3 :=
  (bit_high _ _ 15 (by decide)).trans ((bit_high _ _ 10 (by decide)).trans ((bit_high _ _ 9 (by decide)).trans (bit_high _ _ 6 (by decide))))

@[simp] theorem bit14_Opi : Word.bit (o ++ r ++ a ++ m ++ i) 14 = o.getLsbD 2 :=
  (bit_high _ _ 14 (by decide)).trans ((bit_high _ _ 9 (by decide)).trans ((bit_high _ _ 8 (by decide)).trans (bit_high _ _ 5 (by decide))))

@[simp] theorem bit13_Opi : Word.bit (o ++ r ++ a ++ m ++ i) 13 = o.getLsbD 1 :=
  (bit_high _ _ 13 (by decide)).trans ((bit_high _ _ 8 (by decide)).trans ((bit_high _ _ 7 (by decide)).trans (bit_high _ _ 4 (by decide))))

@[simp] theorem bit12_Opi : Word.bit (o ++ r ++ a ++ m ++ i) 12 = o.getLsbD 0 :=
  (bit_high _ _ 12 (by decide)).trans ((bit_high _ _ 7 (by decide)).trans ((bit_high _ _ 6 (by decide)).trans (bit_high _ _ 3 (by decide))))

@[simp] theorem f11_9_Opi : Word.f11_9 (o ++ r ++ a ++ m ++ i) = r :=
  (extract_high _ _ 9 3 (by decide)).trans ((extract_high _ _ 4 3 (by decide)).trans ((extract_high _ _ 3 3 (by decide)).trans ((extract_within _ _ 0 3 (by decide)).trans (extract_all _))))

@[simp] theorem f8_6_Opi : Word.f8_6 (o ++ r ++ a ++ m ++ i) = a :=
  (extract_high _ _ 6 3 (by decide)).trans ((extract_high _ _ 1 3 (by decide)).trans ((extract_within _ _ 0 3 (by decide)).trans (extract_all _)))

@[simp] theorem bit5_Opi : Word.bit (o ++ r ++ a ++ m ++ i) 5 = m.getLsbD 0 :=
  (bit_high _ _ 5 (by decide)).trans (bit_low _ _ 0 (by decide))

@[simp] theorem mode_Opi : Word.mode (o ++ r ++ a ++ m ++ i) = m.getLsbD 0 :=
  (bit_high _ _ 5 (by decide)).trans (bit_low _ _ 0 (by decide))

@[simp] theorem imm5_Opi : Word.imm5 (o ++ r ++ a ++ m ++ i) = i :=
  (extract_within _ _ 0 5 (by decide)).trans (extract_all _)

end Opi

section Opr

variable (o : BitVec 4) (r : BitVec 3) (a : BitVec 3) (m : BitVec 1) (x : BitVec 2) (b : BitVec 3)

@[simp] theorem bit15_Opr : Word.bit (o ++ r ++ a ++ m ++ x ++ b) 15 = o.getLsbD 3 :=
  (bit_high _ _ 15 (by decide)).trans ((bit_high _ _ 12 (by decide)).trans ((bit_high _ _ 10 (by decide)).trans ((bit_high _ _ 9 (by decide)).trans (bit_high _ _ 6 (by decide)))))

@[simp] theorem bit14_Opr : Word.bit (o ++ r ++ a ++ m ++ x ++ b) 14 = o.getLsbD 2 :=
  (bit_high _ _ 14 (by decide)).trans ((bit_high _ _ 11 (by decide)).trans ((bit_high _ _ 9 (by decide)).trans ((bit_high _ _ 8 (by decide)).trans (bit_high _ _ 5 (by decide)))))

@[simp] theorem bit13_Opr : Word.bit (o ++ r ++ a ++ m ++ x ++ b) 13 = o.getLsbD 1 :=
  (bit_high _ _ 13 (by decide)).trans ((bit_high _ _ 10 (by decide)).trans ((bit_high _ _ 8 (by decide)).trans ((bit_high _ _ 7 (by decide)).trans (bit_high _ _ 4 (by decide)))))

@[simp] theorem bit12_Opr : Word.bit (o ++ r ++ a ++ m ++ x ++ b) 12 = o.getLsbD 0 :=
  (bit_high _ _ 12 (by decide)).trans ((bit_high _ _ 9 (by decide)).trans ((bit_high _ _ 7 (by decide)).trans ((bit_high _ _ 6 (by decide)).trans (bit_high _ _ 3 (by decide)))))

@[simp] theorem f11_9_Opr : Word.f11_9 (o ++ r ++ a ++ m ++ x ++ b) = r :=
  (extract_high _ _ 9 3 (by decide)).trans ((extract_high _ _ 6 3 (by decide)).trans ((extract_high _ _ 4 3 (by decide)).trans ((extract_high _ _ 3 3 (by decide)).trans ((extract_within _ _ 0 3 (by decide)).trans (extract_all _)))))

@[simp] theorem f8_6_Opr : Word.f8_6 (o ++ r ++ a ++ m ++ x ++ b) = a :=
  (extract_high _ _ 6 3 (by decide)).trans ((extract_high _ _ 3 3 (by decide)).trans ((extract_high _ _ 1 3 (by decide)).trans ((extract_within _ _ 0 3 (by decide)).trans (extract_all _))))

@[simp] theorem bit5_Opr : Word.bit (o ++ r ++ a ++ m ++ x ++ b) 5 = m.getLsbD 0 :=
  (bit_high _ _ 5 (by decide)).trans ((bit_high _ _ 2 (by decide)).trans (bit_low _ _ 0 (by decide)))

@[simp] theorem mode_Opr : Word.mode (o ++ r ++ a ++ m ++ x ++ b) = m.getLsbD 0 :=
  (bit_high _ _ 5 (by decide)).trans ((bit_high _ _ 2 (by decide)).trans (bit_low _ _ 0 (by decide)))

@[simp] theorem f2_0_Opr : Word.f2_0 (o ++ r ++ a ++ m ++ x ++ b) = b :=
  (extract_within _ _ 0 3 (by decide)).trans (extract_all _)

end Opr

section Trp

variable (o : BitVec 4) (x : BitVec 4) (v : BitVec 8)

@[simp] theorem bit15_Trp : Word.bit (o ++ x ++ v) 15 = o.getLsbD 3 :=
  (bit_high _ _ 15 (by decide)).trans (bit_high _ _ 7 (by decide))

@[simp] theorem bit14_Trp : Word.bit (o ++ x ++ v) 14 = o.getLsbD 2 :=
  (bit_high _ _ 14 (by decide)).trans (bit_high _ _ 6 (by decide))

@[simp] theorem bit13_Trp : Word.bit (o ++ x ++ v) 13 = o.getLsbD 1 :=
  (bit_high _ _ 13 (by decide)).trans (bit_high _ _ 5 (by decide))

@[simp] theorem bit12_Trp : Word.bit (o ++ x ++ v) 12 = o.getLsbD 0 :=
  (bit_high _ _ 12 (by decide)).trans (bit_high _ _ 4 (by decide))

@[simp] theorem trapvect8_Trp : Word.trapvect8 (o ++ x ++ v) = v :=
  (extract_within _ _ 0 8 (by decide)).trans (extract_all _)

end Trp

section Trp8

variable (h : BitVec 8) (v : BitVec 8)

@[simp] theorem bit15_Trp8 : Word.bit (h ++ v) 15 = h.getLsbD 7 :=
  bit_high _ _ 15 (by decide)

@[simp] theorem bit14_Trp8 : Word.bit (h ++ v) 14 = h.getLsbD 6 :=
  bit_high _ _ 14 (by decide)

@[simp] theorem bit13_Trp8 : Word.bit (h ++ v) 13 = h.getLsbD 5 :=
  bit_high _ _ 13 (by decide)

@[simp] theorem bit12_Trp8 : Word.bit (h ++ v) 12 = h.getLsbD 4 :=
  bit_high _ _ 12 (by decide)

@[simp] theorem trapvect8_Trp8 : Word.trapvect8 (h ++ v) = v :=
  (extract_within _ _ 0 8 (by decide)).trans (extract_all _)

end Trp8

section Inv

variable (o : BitVec 4) (x : BitVec 12)

@[simp] theorem bit15_Inv : Word.bit (o ++ x) 15 = o.getLsbD 3 :=
  bit_high _ _ 15 (by decide)

@[simp] theorem bit14_Inv : Word.bit (o ++ x) 14 = o.getLsbD 2 :=
  bit_high _ _ 14 (by decide)

@[simp] theorem bit13_Inv : Word.bit (o ++ x) 13 = o.getLsbD 1 :=
  bit_high _ _ 13 (by decide)

@[simp] theorem bit12_Inv : Word.bit (o ++ x) 12 = o.getLsbD 0 :=
  bit_high _ _ 12 (by decide)

end Inv

end Sys2Proof
end

