-- ==== Sys2Proof/Laws/State.lean ====
section
/-! SUPPORT. The fields of a state after each named update, one lemma per field per update, so that no later proof unfolds a record update. -/

namespace Sys2Proof.Machine

variable (s : State)

@[simp] theorem State.setReg_regs (r : Reg) (v : Word) : (s.setReg r v).regs = s.regs.set r.val v r.isLt := rfl
@[simp] theorem State.setReg_pc (r : Reg) (v : Word) : (s.setReg r v).pc = s.pc := rfl
@[simp] theorem State.setReg_ir (r : Reg) (v : Word) : (s.setReg r v).ir = s.ir := rfl
@[simp] theorem State.setReg_cc (r : Reg) (v : Word) : (s.setReg r v).cc = s.cc := rfl
@[simp] theorem State.setReg_fsm (r : Reg) (v : Word) : (s.setReg r v).fsm = s.fsm := rfl
@[simp] theorem State.setReg_stopCause (r : Reg) (v : Word) : (s.setReg r v).stopCause = s.stopCause := rfl
@[simp] theorem State.setReg_faultAddr (r : Reg) (v : Word) : (s.setReg r v).faultAddr = s.faultAddr := rfl
@[simp] theorem State.setReg_faultAccess (r : Reg) (v : Word) : (s.setReg r v).faultAccess = s.faultAccess := rfl
@[simp] theorem State.setReg_mem (r : Reg) (v : Word) : (s.setReg r v).mem = s.mem := rfl
@[simp] theorem State.setReg_console (r : Reg) (v : Word) : (s.setReg r v).console = s.console := rfl
@[simp] theorem State.setReg_diag (r : Reg) (v : Word) : (s.setReg r v).diag = s.diag := rfl

@[simp] theorem State.setCC_regs (v : Word) : (s.setCC v).regs = s.regs := rfl
@[simp] theorem State.setCC_pc (v : Word) : (s.setCC v).pc = s.pc := rfl
@[simp] theorem State.setCC_ir (v : Word) : (s.setCC v).ir = s.ir := rfl
@[simp] theorem State.setCC_cc (v : Word) : (s.setCC v).cc = ccOf v := rfl
@[simp] theorem State.setCC_fsm (v : Word) : (s.setCC v).fsm = s.fsm := rfl
@[simp] theorem State.setCC_stopCause (v : Word) : (s.setCC v).stopCause = s.stopCause := rfl
@[simp] theorem State.setCC_faultAddr (v : Word) : (s.setCC v).faultAddr = s.faultAddr := rfl
@[simp] theorem State.setCC_faultAccess (v : Word) : (s.setCC v).faultAccess = s.faultAccess := rfl
@[simp] theorem State.setCC_mem (v : Word) : (s.setCC v).mem = s.mem := rfl
@[simp] theorem State.setCC_console (v : Word) : (s.setCC v).console = s.console := rfl
@[simp] theorem State.setCC_diag (v : Word) : (s.setCC v).diag = s.diag := rfl
@[simp] theorem State.setCC_reg (v : Word) (r : Reg) : (s.setCC v).reg r = s.reg r := rfl

@[simp] theorem State.raiseAddressError_regs (a : Word) (k : Access) : (s.raiseAddressError a k).regs = s.regs := rfl
@[simp] theorem State.raiseAddressError_pc (a : Word) (k : Access) : (s.raiseAddressError a k).pc = s.pc := rfl
@[simp] theorem State.raiseAddressError_ir (a : Word) (k : Access) : (s.raiseAddressError a k).ir = s.ir := rfl
@[simp] theorem State.raiseAddressError_cc (a : Word) (k : Access) : (s.raiseAddressError a k).cc = s.cc := rfl
@[simp] theorem State.raiseAddressError_fsm (a : Word) (k : Access) : (s.raiseAddressError a k).fsm = .faulted := rfl
@[simp] theorem State.raiseAddressError_stopCause (a : Word) (k : Access) : (s.raiseAddressError a k).stopCause = .addressError := rfl
@[simp] theorem State.raiseAddressError_faultAddr (a : Word) (k : Access) : (s.raiseAddressError a k).faultAddr = a := rfl
@[simp] theorem State.raiseAddressError_faultAccess (a : Word) (k : Access) : (s.raiseAddressError a k).faultAccess = k := rfl
@[simp] theorem State.raiseAddressError_mem (a : Word) (k : Access) : (s.raiseAddressError a k).mem = s.mem := rfl
@[simp] theorem State.raiseAddressError_console (a : Word) (k : Access) : (s.raiseAddressError a k).console = s.console := rfl
@[simp] theorem State.raiseAddressError_diag (a : Word) (k : Access) : (s.raiseAddressError a k).diag = s.diag := rfl
@[simp] theorem State.raiseAddressError_reg (a : Word) (k : Access) (r : Reg) : (s.raiseAddressError a k).reg r = s.reg r := rfl

@[simp] theorem State.complete_regs : (s.complete).regs = s.regs := rfl
@[simp] theorem State.complete_pc : (s.complete).pc = s.pc := rfl
@[simp] theorem State.complete_ir : (s.complete).ir = s.ir := rfl
@[simp] theorem State.complete_cc : (s.complete).cc = s.cc := rfl
@[simp] theorem State.complete_fsm : (s.complete).fsm = .fetch := rfl
@[simp] theorem State.complete_stopCause : (s.complete).stopCause = s.stopCause := rfl
@[simp] theorem State.complete_faultAddr : (s.complete).faultAddr = s.faultAddr := rfl
@[simp] theorem State.complete_faultAccess : (s.complete).faultAccess = s.faultAccess := rfl
@[simp] theorem State.complete_mem : (s.complete).mem = s.mem := rfl
@[simp] theorem State.complete_console : (s.complete).console = s.console := rfl
@[simp] theorem State.complete_diag : (s.complete).diag = s.diag := rfl
@[simp] theorem State.complete_reg (r : Reg) : (s.complete).reg r = s.reg r := rfl

@[simp] theorem State.stopHalted_regs : (s.stopHalted).regs = s.regs := rfl
@[simp] theorem State.stopHalted_pc : (s.stopHalted).pc = s.pc := rfl
@[simp] theorem State.stopHalted_ir : (s.stopHalted).ir = s.ir := rfl
@[simp] theorem State.stopHalted_cc : (s.stopHalted).cc = s.cc := rfl
@[simp] theorem State.stopHalted_fsm : (s.stopHalted).fsm = .halted := rfl
@[simp] theorem State.stopHalted_stopCause : (s.stopHalted).stopCause = .halt := rfl
@[simp] theorem State.stopHalted_faultAddr : (s.stopHalted).faultAddr = s.faultAddr := rfl
@[simp] theorem State.stopHalted_faultAccess : (s.stopHalted).faultAccess = s.faultAccess := rfl
@[simp] theorem State.stopHalted_mem : (s.stopHalted).mem = s.mem := rfl
@[simp] theorem State.stopHalted_console : (s.stopHalted).console = s.console := rfl
@[simp] theorem State.stopHalted_diag : (s.stopHalted).diag = s.diag := rfl
@[simp] theorem State.stopHalted_reg (r : Reg) : (s.stopHalted).reg r = s.reg r := rfl

@[simp] theorem State.logSoftError_regs (k : SoftErrorKind) : (s.logSoftError k).regs = s.regs := rfl
@[simp] theorem State.logSoftError_pc (k : SoftErrorKind) : (s.logSoftError k).pc = s.pc := rfl
@[simp] theorem State.logSoftError_ir (k : SoftErrorKind) : (s.logSoftError k).ir = s.ir := rfl
@[simp] theorem State.logSoftError_cc (k : SoftErrorKind) : (s.logSoftError k).cc = s.cc := rfl
@[simp] theorem State.logSoftError_fsm (k : SoftErrorKind) : (s.logSoftError k).fsm = s.fsm := rfl
@[simp] theorem State.logSoftError_stopCause (k : SoftErrorKind) : (s.logSoftError k).stopCause = s.stopCause := rfl
@[simp] theorem State.logSoftError_faultAddr (k : SoftErrorKind) : (s.logSoftError k).faultAddr = s.faultAddr := rfl
@[simp] theorem State.logSoftError_faultAccess (k : SoftErrorKind) : (s.logSoftError k).faultAccess = s.faultAccess := rfl
@[simp] theorem State.logSoftError_mem (k : SoftErrorKind) : (s.logSoftError k).mem = s.mem := rfl
@[simp] theorem State.logSoftError_console (k : SoftErrorKind) : (s.logSoftError k).console = s.console := rfl
@[simp] theorem State.logSoftError_diag (k : SoftErrorKind) : (s.logSoftError k).diag = s.diag ++ [SoftError.mk k (s.pc - 1#16) s.ir] := rfl
@[simp] theorem State.logSoftError_reg (k : SoftErrorKind) (r : Reg) : (s.logSoftError k).reg r = s.reg r := rfl

@[simp] theorem State.emitOut_regs (v : Word) : (s.emitOut v).regs = s.regs := rfl
@[simp] theorem State.emitOut_pc (v : Word) : (s.emitOut v).pc = s.pc := rfl
@[simp] theorem State.emitOut_ir (v : Word) : (s.emitOut v).ir = s.ir := rfl
@[simp] theorem State.emitOut_cc (v : Word) : (s.emitOut v).cc = s.cc := rfl
@[simp] theorem State.emitOut_fsm (v : Word) : (s.emitOut v).fsm = s.fsm := rfl
@[simp] theorem State.emitOut_stopCause (v : Word) : (s.emitOut v).stopCause = s.stopCause := rfl
@[simp] theorem State.emitOut_faultAddr (v : Word) : (s.emitOut v).faultAddr = s.faultAddr := rfl
@[simp] theorem State.emitOut_faultAccess (v : Word) : (s.emitOut v).faultAccess = s.faultAccess := rfl
@[simp] theorem State.emitOut_mem (v : Word) : (s.emitOut v).mem = s.mem := rfl
@[simp] theorem State.emitOut_console (v : Word) : (s.emitOut v).console = s.console ++ [v] := rfl
@[simp] theorem State.emitOut_diag (v : Word) : (s.emitOut v).diag = s.diag := rfl
@[simp] theorem State.emitOut_reg (v : Word) (r : Reg) : (s.emitOut v).reg r = s.reg r := rfl

/-- A general register after a write: the written one holds the value, every other is as before. -/
@[simp] theorem State.setReg_reg (d r : Reg) (v : Word) :
    (s.setReg d v).reg r = if r = d then v else s.reg r := by
  simp only [State.reg, State.setReg, Vector.get_eq_getElem, Vector.getElem_set]
  by_cases h : r = d
  · simp [h]
  · rw [if_neg (fun e => h (Fin.ext e.symm)), if_neg h]

end Sys2Proof.Machine
end

