-- ==== Sys2Proof/Laws/Memory.lean ====
section
/-! SUPPORT. Memory: a read after a write, the canonical form kept by every operation, and equal memories are equal lists. -/

namespace Sys2Proof.Machine

@[simp] theorem Memory.read_nil (a : Nat) : Memory.read [] a = Memory.unlisted := rfl

theorem Memory.read_cons (b : Nat) (w : Word) (m : Memory) (a : Nat) :
    Memory.read ((b, w) :: m) a = if a = b then w else Memory.read m a := rfl

/-- An address below every listed one reads as unlisted. -/
theorem Memory.read_of_lt (m : Memory) (a : Nat) (h : ∀ c ∈ m, a < c.1) :
    m.read a = Memory.unlisted := by
  induction m with
  | nil => rfl
  | cons c m ih =>
    have hc : a < c.1 := h c (by simp)
    rw [show c = (c.1, c.2) from rfl, Memory.read_cons, if_neg (by omega)]
    exact ih fun d hd => h d (by simp [hd])

/-- A read after a write: the word written at the address, every other word as before. -/
theorem Memory.read_write (m : Memory) (hm : m.wf) (a b : Nat) (v : Word) :
    (m.write a v).read b = if b = a then v else m.read b := by
  induction m with
  | nil =>
    by_cases hv : v = Memory.unlisted
    · simp [Memory.write, hv]
    · simp [Memory.write, hv, Memory.read_cons]
  | cons c m ih =>
    obtain ⟨e, w⟩ := c
    have hp := List.pairwise_cons.mp hm.1
    have hm' : Memory.wf m := ⟨hp.2, fun d hd => hm.2 d (by simp [hd])⟩
    have below : ∀ x, x ≤ e → Memory.read m x = Memory.unlisted := fun x hx =>
      Memory.read_of_lt m x fun d hd => lt_of_le_of_lt hx (hp.1 d hd)
    have ih' := ih hm'
    by_cases h1 : a < e
    · by_cases hv : v = Memory.unlisted
      · simp only [Memory.write, if_pos h1, if_pos hv, Memory.read_cons]
        by_cases hb : b = a
        · rw [if_pos hb, if_neg (by omega), below b (by omega), hv]
        · rw [if_neg hb]
      · simp only [Memory.write, if_pos h1, if_neg hv, Memory.read_cons]
    · by_cases h2 : a = e
      · by_cases hv : v = Memory.unlisted
        · simp only [Memory.write, if_neg h1, if_pos h2, if_pos hv, Memory.read_cons]
          by_cases hb : b = a
          · rw [if_pos hb, below b (by omega), hv]
          · rw [if_neg hb, if_neg (by omega)]
        · simp only [Memory.write, if_neg h1, if_pos h2, if_neg hv, Memory.read_cons]
          by_cases hb : b = a
          · simp only [if_pos hb]
          · rw [if_neg hb, if_neg hb, if_neg (by omega)]
      · simp only [Memory.write, if_neg h1, if_neg h2, Memory.read_cons, ih']
        by_cases hb : b = e
        · rw [if_pos hb, if_neg (by omega), if_pos hb]
        · rw [if_neg hb, if_neg hb]

/-- Every word listed after a write was listed before it, or is the word written. -/
theorem Memory.mem_write (m : Memory) (a : Nat) (v : Word) (c : Nat × Word)
    (h : c ∈ m.write a v) : c ∈ m ∨ (c = (a, v) ∧ v ≠ Memory.unlisted) := by
  induction m with
  | nil =>
    simp only [Memory.write] at h
    split at h
    · simp at h
    · exact .inr ⟨by simpa using h, ‹_›⟩
  | cons d m ih =>
    obtain ⟨e, w⟩ := d
    simp only [Memory.write] at h
    split at h
    · split at h
      · exact .inl h
      · rcases List.mem_cons.mp h with h | h
        · exact .inr ⟨h, ‹_›⟩
        · exact .inl h
    · split at h
      · split at h
        · exact .inl (List.mem_cons_of_mem _ h)
        · rcases List.mem_cons.mp h with h | h
          · exact .inr ⟨h, ‹_›⟩
          · exact .inl (List.mem_cons_of_mem _ h)
      · rcases List.mem_cons.mp h with h | h
        · exact .inl (h ▸ List.mem_cons_self)
        · exact (ih h).imp_left (List.mem_cons_of_mem _)

@[simp] theorem Memory.wf_nil : Memory.wf [] := by decide

/-- A write inside memory keeps the canonical form. -/
theorem Memory.write_wf (m : Memory) (hm : m.wf) (a : Nat) (ha : a < Config.memSize) (v : Word) :
    (m.write a v).wf := by
  refine ⟨?_, fun c hc => ?_⟩
  · induction m with
    | nil =>
      simp only [Memory.write]
      split <;> simp
    | cons c m ih =>
      obtain ⟨e, w⟩ := c
      have hp := List.pairwise_cons.mp hm.1
      have hm' : Memory.wf m := ⟨hp.2, fun d hd => hm.2 d (by simp [hd])⟩
      simp only [Memory.write]
      split
      · split
        · exact hm.1
        · refine List.pairwise_cons.mpr ⟨fun d hd => ?_, hm.1⟩
          rcases List.mem_cons.mp hd with hd | hd
          · subst hd; assumption
          · exact lt_trans ‹a < e› (hp.1 d hd)
      · split
        · split
          · exact hp.2
          · refine List.pairwise_cons.mpr ⟨fun d hd => ?_, hp.2⟩
            have := hp.1 d hd
            simp only at this ⊢
            omega
        · refine List.pairwise_cons.mpr ⟨fun d hd => ?_, ih hm'⟩
          rcases Memory.mem_write m a v d hd with hd | ⟨hd, -⟩
          · exact hp.1 d hd
          · simp only [hd]
            omega
  · rcases m.mem_write a v c hc with h | ⟨h, hv⟩
    · exact hm.2 c h
    · exact h ▸ ⟨ha, hv⟩

/-- In the canonical form, a listed word is what its address reads as. -/
theorem Memory.read_of_mem (m : Memory) (hm : m.wf) (c : Nat × Word) (hc : c ∈ m) :
    m.read c.1 = c.2 := by
  induction m with
  | nil => simp at hc
  | cons d m ih =>
    obtain ⟨e, w⟩ := d
    have hp := List.pairwise_cons.mp hm.1
    rcases List.mem_cons.mp hc with h | h
    · simp [h, Memory.read_cons]
    · have hlt := hp.1 c h
      simp only at hlt
      rw [Memory.read_cons, if_neg (by omega)]
      exact ih ⟨hp.2, fun d hd => hm.2 d (by simp [hd])⟩ h

/-- In the canonical form, two memories that read alike everywhere are the same list. -/
theorem Memory.ext_of_wf (m n : Memory) (hm : m.wf) (hn : n.wf)
    (h : ∀ a, m.read a = n.read a) : m = n := by
  induction m generalizing n with
  | nil =>
    cases n with
    | nil => rfl
    | cons d n =>
      have h1 := Memory.read_of_mem _ hn d (by simp)
      exact absurd (h1.symm.trans (h d.1).symm) (hn.2 d (by simp)).2
  | cons c m ih =>
    cases n with
    | nil =>
      have h1 := Memory.read_of_mem _ hm c (by simp)
      exact absurd (h1.symm.trans (h c.1)) (hm.2 c (by simp)).2
    | cons d n =>
      have hpm := List.pairwise_cons.mp hm.1
      have hpn := List.pairwise_cons.mp hn.1
      have hc := Memory.read_of_mem _ hm c (by simp)
      have hd := Memory.read_of_mem _ hn d (by simp)
      obtain ⟨e, w⟩ := c
      obtain ⟨f, x⟩ := d
      have hef : e = f := by
        by_contra hne
        rcases Nat.lt_or_gt_of_ne hne with hlt | hlt
        · have : Memory.read ((f, x) :: n) e = Memory.unlisted :=
            Memory.read_of_lt _ _ fun y hy => by
              rcases List.mem_cons.mp hy with hy | hy
              · subst hy; exact hlt
              · exact lt_trans hlt (hpn.1 y hy)
          exact (hm.2 (e, w) (by simp)).2 (hc.symm.trans ((h e).trans this))
        · have : Memory.read ((e, w) :: m) f = Memory.unlisted :=
            Memory.read_of_lt _ _ fun y hy => by
              rcases List.mem_cons.mp hy with hy | hy
              · subst hy; exact hlt
              · exact lt_trans hlt (hpm.1 y hy)
          exact (hn.2 (f, x) (by simp)).2 (hd.symm.trans ((h f).symm.trans this))
      subst hef
      have hwx : w = x := hc.symm.trans ((h e).trans hd)
      subst hwx
      congr 1
      refine ih n ⟨hpm.2, fun y hy => hm.2 y (by simp [hy])⟩ ⟨hpn.2, fun y hy => hn.2 y (by simp [hy])⟩
        fun a => ?_
      by_cases ha : a = e
      · subst ha
        rw [Memory.read_of_lt m a fun y hy => hpm.1 y hy, Memory.read_of_lt n a fun y hy => hpn.1 y hy]
      · simpa [Memory.read_cons, ha] using h a

end Sys2Proof.Machine
end

