-- ==== Sys2Proof/Laws/Ops.lean ====
section
/-! SUPPORT. One lemma per shared operation that says all it can do: the range check, the accesses, the condition codes, the result write, the fetch. -/

namespace Sys2Proof.Machine

/-- What `SetCC` writes is the sign of the value. -/
theorem ccOf_sign (v : Word) : SignCC v (ccOf v) := by
  have hm : v.getLsbD 15 = decide (v.toInt < 0) := by
    rw [← BitVec.msb_eq_toInt]
    simp [BitVec.msb_eq_getLsbD_last]
  refine ⟨fun h => ?_, fun h => ?_, fun h => ?_⟩
  · simp [ccOf, hm, h]
  · have hv : v = 0#16 := BitVec.eq_of_toInt_eq (by simpa using h)
    simp [hv, ccOf]
  · have h1 : v.getLsbD 15 = false := by rw [hm, decide_eq_false_iff_not]; omega
    have h2 : v ≠ 0#16 := fun e => by simp [e] at h
    rw [ccOf, h1, if_neg (by decide), if_neg h2]

/-- What `SetCC` writes has exactly one bit set. -/
theorem ccOf_oneHot (v : Word) : OneHot (ccOf v) := by
  unfold ccOf
  split
  · exact .inl rfl
  · split
    · exact .inr (.inl rfl)
    · exact .inr (.inr rfl)

/-- A read below 50 gives the word there. -/
theorem State.memRead_of_lt (s : State) (a : Word) (h : a.toNat < 50) :
    s.memRead a = some (s.mem.read a.toNat) := if_pos h

/-- A read at 50 or above gives nothing. -/
theorem State.memRead_of_ge (s : State) (a : Word) (h : 50 ≤ a.toNat) : s.memRead a = none :=
  if_neg (Nat.not_lt.mpr h)

/-- A write below 50 puts the word there. -/
theorem State.memWrite_of_lt (s : State) (a v : Word) (h : a.toNat < 50) :
    s.memWrite a v = some { s with mem := s.mem.write a.toNat v } := if_pos h

/-- A write at 50 or above does nothing. -/
theorem State.memWrite_of_ge (s : State) (a v : Word) (h : 50 ≤ a.toNat) : s.memWrite a v = none :=
  if_neg (Nat.not_lt.mpr h)

/-- A read below 50 goes on with the word there. -/
theorem State.loadThen_of_lt (s : State) (a : Word) (k : Word → State) (h : a.toNat < 50) :
    s.loadThen a k = k (s.mem.read a.toNat) := by simp [State.loadThen, s.memRead_of_lt a h]

/-- A read at 50 or above raises `AddressError`. -/
theorem State.loadThen_of_ge (s : State) (a : Word) (k : Word → State) (h : 50 ≤ a.toNat) :
    s.loadThen a k = s.raiseAddressError a .load := by simp [State.loadThen, s.memRead_of_ge a h]

/-- All a read can do. -/
theorem State.loadThen_cases (s : State) (a : Word) (k : Word → State) :
    (a.toNat < 50 ∧ s.loadThen a k = k (s.mem.read a.toNat)) ∨
    (50 ≤ a.toNat ∧ s.loadThen a k = s.raiseAddressError a .load) := by
  rcases Nat.lt_or_ge a.toNat 50 with h | h
  · exact .inl ⟨h, s.loadThen_of_lt a k h⟩
  · exact .inr ⟨h, s.loadThen_of_ge a k h⟩

/-- A write below 50 puts the word there and completes. -/
theorem State.storeWord_of_lt (s : State) (a v : Word) (h : a.toNat < 50) :
    s.storeWord a v = State.complete { s with mem := s.mem.write a.toNat v } := by
  simp [State.storeWord, s.memWrite_of_lt a v h]

/-- A write at 50 or above raises `AddressError`. -/
theorem State.storeWord_of_ge (s : State) (a v : Word) (h : 50 ≤ a.toNat) :
    s.storeWord a v = s.raiseAddressError a .store := by simp [State.storeWord, s.memWrite_of_ge a v h]

/-- All a write can do. -/
theorem State.storeWord_cases (s : State) (a v : Word) :
    (a.toNat < 50 ∧ s.storeWord a v = State.complete { s with mem := s.mem.write a.toNat v }) ∨
    (50 ≤ a.toNat ∧ s.storeWord a v = s.raiseAddressError a .store) := by
  rcases Nat.lt_or_ge a.toNat 50 with h | h
  · exact .inl ⟨h, s.storeWord_of_lt a v h⟩
  · exact .inr ⟨h, s.storeWord_of_ge a v h⟩

/-- A write of a word in a canonical memory, as a change of the state. -/
theorem State.storeWord_stores (s : State) (hs : s.mem.wf) (a v : Word) (h : a.toNat < 50) :
    StoresWord s (s.storeWord a v) a.toNat v := by
  rw [s.storeWord_of_lt a v h]
  refine ⟨?_, fun b hb => ?_, rfl, fun _ => rfl, rfl, rfl, rfl, ⟨rfl, rfl, rfl⟩, rfl, rfl⟩
  · simp [Memory.read_write _ hs]
  · simp [Memory.read_write _ hs, hb]

/-- A result written, as a change of the state. -/
theorem State.writeResult_writes (s : State) (d : Reg) (v : Word) :
    WritesResult s (s.writeResult d v) d v := by
  refine ⟨?_, ccOf_sign v, rfl, fun r hr => ?_, rfl, rfl, fun _ => rfl, ⟨rfl, rfl, rfl⟩, rfl, rfl⟩
  · simp [State.writeResult]
  · simp [State.writeResult, hr]

/-- An `AddressError` taken, as a change of the state. -/
theorem State.raiseAddressError_raises (s : State) (a : Word) (k : Access) :
    RaisesAddressError s (s.raiseAddressError a k) a k :=
  ⟨rfl, rfl, rfl, rfl, fun _ => rfl, rfl, rfl, rfl, fun _ => rfl, rfl, rfl⟩

/-- A soft error logged, as a change of the state. -/
theorem State.logSoftError_logs (s : State) (k : SoftErrorKind) :
    LogsSoftError s (s.logSoftError k).complete k :=
  ⟨rfl, rfl, rfl, fun _ => rfl, rfl, rfl, rfl, fun _ => rfl, rfl, rfl, rfl⟩

/-- A fetch below 50. -/
theorem State.fetchWord_of_lt (s : State) (h : s.pc.toNat < 50) :
    s.fetchWord = some { s with ir := s.mem.read s.pc.toNat, pc := s.pc + 1#16, fsm := .decode } := by
  simp [State.fetchWord, s.memRead_of_lt s.pc h]

/-- A fetch at 50 or above. -/
theorem State.fetchWord_of_ge (s : State) (h : 50 ≤ s.pc.toNat) : s.fetchWord = none := by
  simp [State.fetchWord, s.memRead_of_ge s.pc h]

end Sys2Proof.Machine
end

