-- ==== Sys2Proof/Laws/PerInstr.lean ====
section
/-! SUPPORT. Statements about every instruction as syntax, one lemma per constructor. -/

namespace Sys2Proof

/-- The word of the instruction has the fixed bits of its row of spec/opcode_table.json. -/
def Laws.FitsTable.Statement (i : Instr) : Prop :=
  encode i &&& i.tableMask = i.tableMatch

namespace Laws.FitsTable

theorem br (c : BitVec 3) (off : BitVec 9) : Statement (.br c off) :=
  Word.ext_bit _ _ fun k => by
    fin_cases k <;> simp [encode, Instr.tableMask, Instr.tableMatch]

theorem addReg (d a b : Reg) : Statement (.addReg d a b) :=
  Word.ext_bit _ _ fun k => by
    fin_cases k <;> simp [encode, Instr.tableMask, Instr.tableMatch]

theorem addImm (d a : Reg) (imm : BitVec 5) : Statement (.addImm d a imm) :=
  Word.ext_bit _ _ fun k => by
    fin_cases k <;> simp [encode, Instr.tableMask, Instr.tableMatch]

theorem ld (d : Reg) (off : BitVec 9) : Statement (.ld d off) :=
  Word.ext_bit _ _ fun k => by
    fin_cases k <;> simp [encode, Instr.tableMask, Instr.tableMatch]

theorem andReg (d a b : Reg) : Statement (.andReg d a b) :=
  Word.ext_bit _ _ fun k => by
    fin_cases k <;> simp [encode, Instr.tableMask, Instr.tableMatch]

theorem andImm (d a : Reg) (imm : BitVec 5) : Statement (.andImm d a imm) :=
  Word.ext_bit _ _ fun k => by
    fin_cases k <;> simp [encode, Instr.tableMask, Instr.tableMatch]

theorem ldr (d b : Reg) (off : BitVec 6) : Statement (.ldr d b off) :=
  Word.ext_bit _ _ fun k => by
    fin_cases k <;> simp [encode, Instr.tableMask, Instr.tableMatch]

theorem str (r b : Reg) (off : BitVec 6) : Statement (.str r b off) :=
  Word.ext_bit _ _ fun k => by
    fin_cases k <;> simp [encode, Instr.tableMask, Instr.tableMatch]

theorem not (d r : Reg) : Statement (.not d r) :=
  Word.ext_bit _ _ fun k => by
    fin_cases k <;> simp [encode, Instr.tableMask, Instr.tableMatch]

theorem ldi (d : Reg) (off : BitVec 9) : Statement (.ldi d off) :=
  Word.ext_bit _ _ fun k => by
    fin_cases k <;> simp [encode, Instr.tableMask, Instr.tableMatch]

theorem sti (r : Reg) (off : BitVec 9) : Statement (.sti r off) :=
  Word.ext_bit _ _ fun k => by
    fin_cases k <;> simp [encode, Instr.tableMask, Instr.tableMatch]

theorem lea (d : Reg) (off : BitVec 9) : Statement (.lea d off) :=
  Word.ext_bit _ _ fun k => by
    fin_cases k <;> simp [encode, Instr.tableMask, Instr.tableMatch]

theorem trapOut : Statement .trapOut :=
  show encode .trapOut &&& Instr.tableMask .trapOut = Instr.tableMatch .trapOut by decide

theorem trapHalt : Statement .trapHalt :=
  show encode .trapHalt &&& Instr.tableMask .trapHalt = Instr.tableMatch .trapHalt by decide

theorem trapInvalid (v : BitVec 8) : Statement (.trapInvalid v) :=
  Word.ext_bit _ _ fun k => by
    fin_cases k <;> simp [encode, Instr.tableMask, Instr.tableMatch]

theorem invalid3 : Statement .invalid3 :=
  show encode .invalid3 &&& Instr.tableMask .invalid3 = Instr.tableMatch .invalid3 by decide

theorem invalid4 : Statement .invalid4 :=
  show encode .invalid4 &&& Instr.tableMask .invalid4 = Instr.tableMatch .invalid4 by decide

theorem invalid8 : Statement .invalid8 :=
  show encode .invalid8 &&& Instr.tableMask .invalid8 = Instr.tableMatch .invalid8 by decide

theorem invalid12 : Statement .invalid12 :=
  show encode .invalid12 &&& Instr.tableMask .invalid12 = Instr.tableMatch .invalid12 by decide

theorem invalid13 : Statement .invalid13 :=
  show encode .invalid13 &&& Instr.tableMask .invalid13 = Instr.tableMatch .invalid13 by decide

end Laws.FitsTable

end Sys2Proof
end

