-- ==== Sys2Proof/Laws/Step.lean ====
section
/-! SUPPORT. Runs of many steps, and the phases of a pass. -/

namespace Sys2Proof.Machine

/-- A run whose first step answers `t` goes on from `t`, for any machine. -/
theorem run_succ_of_step (M : Host.Core) (n : Nat) (s t : M.State) (h : M.step s = .next t) :
    M.run (n + 1) s = M.run n t := by
  rw [Host.Core.run, h]

/-- A run of this machine whose first step answers `t` goes on from `t`. -/
theorem core_run_succ (n : Nat) (s t : State) (h : step s = .next t) :
    Sys2Proof.core.run (n + 1) s = Sys2Proof.core.run n t :=
  run_succ_of_step Sys2Proof.core n s t h

/-- All a FETCH phase can do: go on with the word at `pc`, or raise the fetch's `AddressError`. -/
theorem State.fetchPhase_cases (s : State) :
    (s.pc.toNat < 50 ∧ s.fetchPhase = State.decodePhase
      { s with ir := s.mem.read s.pc.toNat, pc := s.pc + 1#16, fsm := .decode }) ∨
    (50 ≤ s.pc.toNat ∧ s.fetchPhase = .next (s.raiseAddressError s.pc .fetch)) := by
  rcases Nat.lt_or_ge s.pc.toNat 50 with h | h
  · exact .inl ⟨h, by simp [State.fetchPhase, s.fetchWord_of_lt h]⟩
  · exact .inr ⟨h, by simp [State.fetchPhase, s.fetchWord_of_ge h]⟩

end Sys2Proof.Machine
end

