-- ==== Sys2Proof/Tests/Slice0.lean ====
section
/-! SUPPORT. The model's own tests, and for every statement that has hypotheses a state that meets them.
Expected results are the vectors of spec/95_test_vectors.md, named in each docstring, unless the docstring says otherwise. -/

namespace Sys2Proof.Tests

open Sys2Proof Sys2Proof.Machine

/-! ## Well-formedness -/

theorem test_wf_refuses_out_as_invalid_trap : Instr.wf (.trapInvalid 0x21#8) = false := by decide

theorem test_wf_refuses_halt_as_invalid_trap : Instr.wf (.trapInvalid 0x25#8) = false := by decide

theorem test_wf_takes_vectors_beside_them :
    Instr.wf (.trapInvalid 0x20#8) = true ∧ Instr.wf (.trapInvalid 0x22#8) = true ∧
    Instr.wf (.trapInvalid 0x24#8) = true ∧ Instr.wf (.trapInvalid 0x26#8) = true := by decide

/-! ## Decoding: words of 95_test_vectors.md L2-1 and L2-3, written out from the formats of 30_encoding.md R97 -/

theorem test_decode_br : decode 0b0000111000000101#16 = .br 0b111#3 5#9 := by decide

theorem test_decode_addReg : decode 0b0001011001000010#16 = .addReg 3 1 2 := by decide

/-- `ir[4:3] = 11` is ignored. -/
theorem test_decode_addReg_ignored : decode 0b0001011001011000#16 = .addReg 3 1 0 := by decide

theorem test_decode_addImm : decode 0b0001001011110000#16 = .addImm 1 3 0b10000#5 := by decide

theorem test_decode_ld : decode 0b0010100000000011#16 = .ld 4 3#9 := by decide

theorem test_decode_andReg : decode 0b0101000001000010#16 = .andReg 0 1 2 := by decide

theorem test_decode_andImm : decode 0b0101000001110000#16 = .andImm 0 1 0b10000#5 := by decide

theorem test_decode_ldr : decode 0b0110110101100000#16 = .ldr 6 5 0b100000#6 := by decide

theorem test_decode_str : decode 0b0111010001000010#16 = .str 2 1 2#6 := by decide

theorem test_decode_not : decode 0b1001101000111111#16 = .not 5 0 := by decide

theorem test_decode_ldi : decode 0b1010100000001000#16 = .ldi 4 8#9 := by decide

theorem test_decode_sti : decode 0b1011100000000111#16 = .sti 4 7#9 := by decide

theorem test_decode_lea : decode 0b1110001111111110#16 = .lea 1 0b111111110#9 := by decide

theorem test_decode_trapOut :
    decode 0b1111000000100001#16 = .trapOut ∧ decode 0b1111000100100001#16 = .trapOut := by decide

theorem test_decode_trapHalt :
    decode 0b1111000000100101#16 = .trapHalt ∧ decode 0b1111111100100101#16 = .trapHalt := by decide

theorem test_decode_trapInvalid :
    decode 0b1111000000100000#16 = .trapInvalid 0x20#8 ∧ decode 0b1111111111111111#16 = .trapInvalid 0xFF#8 := by decide

theorem test_decode_invalid3 : decode 0b0011000000000000#16 = .invalid3 := by decide

theorem test_decode_invalid4 : decode 0b0100111111111111#16 = .invalid4 := by decide

theorem test_decode_invalid8 : decode 0b1000111111111111#16 = .invalid8 := by decide

theorem test_decode_invalid12 : decode 0b1100111111111111#16 = .invalid12 := by decide

theorem test_decode_invalid13 : decode 0b1101111111111111#16 = .invalid13 := by decide

theorem test_decodeTableWord : decodeTableWord 16 0x2803 = some (.ld 4 3#9) := by decide

/-! ## One step: the vectors of L2-3 to L2-7 -/

/-- The block about to fetch at `pc`, in the state a row of a vector table lists: the word at `pc`, `cc`, the registers and the memory words that differ from reset. -/
def bench (pc word : Word) (cc : BitVec 3) (regs : List (Reg × Word)) (cells : List (Nat × Word)) : State :=
  let s : State := { State.resetWith .z 0#16 .fetch with
    pc := pc, cc := cc, fsm := .fetch,
    mem := cells.foldl (fun m c => m.write c.1 c.2) (Memory.write [] pc.toNat word) }
  regs.foldl (fun t r => t.setReg r.1 r.2) s

/-- The state an outcome gives, if it gives one. -/
def after : Outcome → Option State
  | .next t => some t
  | _ => none

/-- V-BR-1, taken. -/
theorem test_br_taken : (after (step (bench 2#16 0x03FE#16 0b001#3 [] []))).map
    (fun t => (t.pc, t.cc, t.fsm)) = some (1#16, 0b001#3, .fetch) := by decide

/-- V-BR-6, BRzp on N, not taken. -/
theorem test_br_not_taken : (after (step (bench 5#16 0x0605#16 0b100#3 [] []))).map
    (fun t => (t.pc, t.cc)) = some (6#16, 0b100#3) := by decide

/-- V-ALU-2, the signed overflow wraps. -/
theorem test_addReg_wraps : (after (step (bench 0#16 0x1642#16 0b010#3 [(1, 0x7FFF#16), (2, 1#16)] []))).map
    (fun t => (t.reg 3, t.cc, t.pc)) = some (0x8000#16, 0b100#3, 1#16) := by decide

/-- V-ALU-5, one register as both sources and the destination. -/
theorem test_addReg_same_register : (after (step (bench 0#16 0x1241#16 0b010#3 [(1, 0x10#16)] []))).map
    (fun t => (t.reg 1, t.cc)) = some (0x20#16, 0b001#3) := by decide

/-- V-ALU-7, the source's own word, 18 + (-16). -/
theorem test_addImm_negative : (after (step (bench 0#16 0x12F0#16 0b010#3 [(3, 0x12#16)] []))).map
    (fun t => (t.reg 1, t.reg 3, t.cc)) = some (2#16, 0x12#16, 0b001#3) := by decide

/-- V-ALU-9, imm5 = -1. -/
theorem test_addImm_minus_one : (after (step (bench 0#16 0x167F#16 0b010#3 [(1, 0#16)] []))).map
    (fun t => (t.reg 3, t.cc)) = some (0xFFFF#16, 0b100#3) := by decide

/-- V-ALU-11. -/
theorem test_andReg : (after (step (bench 0#16 0x5042#16 0b010#3 [(1, 0xFF0F#16), (2, 0x0FF0#16)] []))).map
    (fun t => (t.reg 0, t.cc)) = some (0x0F00#16, 0b001#3) := by decide

/-- V-ALU-15, the immediate 10000 is 0xFFF0. -/
theorem test_andImm_sign_extends : (after (step (bench 0#16 0x5070#16 0b010#3 [(1, 0x00FF#16)] []))).map
    (fun t => (t.reg 0, t.cc)) = some (0x00F0#16, 0b001#3) := by decide

/-- V-ALU-14, the immediate -1 is the identity. -/
theorem test_andImm_identity : (after (step (bench 0#16 0x507F#16 0b010#3 [(1, 0x8001#16)] []))).map
    (fun t => (t.reg 0, t.cc)) = some (0x8001#16, 0b100#3) := by decide

/-- V-ALU-19, in place. -/
theorem test_not_in_place : (after (step (bench 0#16 0x927F#16 0b010#3 [(1, 0x00F0#16)] []))).map
    (fun t => (t.reg 1, t.cc)) = some (0xFF0F#16, 0b100#3) := by decide

/-- V-ALU-18, the low six bits ignored. -/
theorem test_not_ignored_bits : (after (step (bench 0#16 0x9A00#16 0b010#3 [(0, 0x8000#16)] []))).map
    (fun t => (t.reg 5, t.cc)) = some (0x7FFF#16, 0b001#3) := by decide

/-- V-LS-2, LD of its own word. -/
theorem test_ld_own_word : (after (step (bench 0#16 0x21FF#16 0b010#3 [] []))).map
    (fun t => (t.reg 0, t.cc)) = some (0x21FF#16, 0b001#3) := by decide

/-- V-LS-4, the address 0xFFFF faults. -/
theorem test_ld_faults : (after (step (bench 0#16 0x2BFE#16 0b010#3 [] []))).map
    (fun t => (t.fsm, t.stopCause, t.faultAddr, t.faultAccess, t.pc)) =
      some (.faulted, .addressError, 0xFFFF#16, .load, 1#16) := by decide

/-- V-LS-7, a signed base, and `cc` set. -/
theorem test_ldr_signed_base : (after (step (bench 0#16 0x6D45#16 0b010#3 [(5, 0xFFFF#16)] [(4, 0x00AB#16)]))).map
    (fun t => (t.reg 6, t.cc)) = some (0x00AB#16, 0b001#3) := by decide

/-- V-LS-9, 49 + 1 faults. -/
theorem test_ldr_faults : (after (step (bench 0#16 0x6D41#16 0b010#3 [(5, 0x31#16)] []))).map
    (fun t => (t.fsm, t.faultAddr, t.faultAccess, t.reg 6)) = some (.faulted, 0x32#16, .load, 6#16) := by decide

/-- V-LS-11. -/
theorem test_str : (after (step (bench 0#16 0x7442#16 0b010#3 [(1, 0x0C#16), (2, 0xBEEF#16)] []))).map
    (fun t => (t.mem.read 14, t.cc, t.pc)) = some (0xBEEF#16, 0b010#3, 1#16) := by decide

/-- V-LS-12, 48 + 2 faults, and nothing is written. -/
theorem test_str_faults : (after (step (bench 0#16 0x7442#16 0b010#3 [(1, 0x30#16), (2, 0xBEEF#16)] []))).map
    (fun t => (t.fsm, t.faultAddr, t.faultAccess, t.mem)) =
      some (.faulted, 0x32#16, .store, [(0, 0x7442#16)]) := by decide

/-- V-LS-14, two levels. -/
theorem test_ldi : (after (step (bench 1#16 0xA808#16 0b010#3 [] [(10, 0x0C#16), (12, 0xFFF9#16)]))).map
    (fun t => (t.reg 4, t.cc)) = some (0xFFF9#16, 0b100#3) := by decide

/-- V-LS-15, the pointer 50 faults on the second read. -/
theorem test_ldi_pointer_faults : (after (step (bench 1#16 0xA808#16 0b010#3 [] [(10, 0x32#16)]))).map
    (fun t => (t.fsm, t.faultAddr, t.faultAccess, t.pc)) = some (.faulted, 0x32#16, .load, 2#16) := by decide

/-- V-LS-19, STI leaves `cc`. -/
theorem test_sti : (after (step (bench 3#16 0xB807#16 0b100#3 [(4, 0xFFF9#16)] [(11, 0x0D#16)]))).map
    (fun t => (t.mem.read 13, t.mem.read 11, t.cc)) = some (0xFFF9#16, 0x0D#16, 0b100#3) := by decide

/-- V-LS-18, the pointer 64 faults on the write. -/
theorem test_sti_pointer_faults : (after (step (bench 3#16 0xB807#16 0b010#3 [(4, 0xFFF9#16)] [(11, 0x40#16)]))).map
    (fun t => (t.fsm, t.faultAddr, t.faultAccess, t.pc)) = some (.faulted, 0x40#16, .store, 4#16) := by decide

/-- V-LS-21, a negative sum wraps. -/
theorem test_lea_wraps : (after (step (bench 0#16 0xE3FE#16 0b010#3 [] []))).map
    (fun t => (t.reg 1, t.cc, t.fsm)) = some (0xFFFF#16, 0b100#3, .fetch) := by decide

/-- V-LS-22, an address past memory is a value, not a fault. -/
theorem test_lea_past_memory : (after (step (bench 40#16 0xE0FF#16 0b010#3 [] []))).map
    (fun t => (t.reg 0, t.cc, t.fsm)) = some (0x0128#16, 0b001#3, .fetch) := by decide

/-- V-TR-2, all 16 bits. -/
theorem test_trapOut : (after (step (bench 1#16 0xF021#16 0b010#3 [(0, 0x1234#16)] []))).map
    (fun t => (t.console, t.diag, t.pc, t.reg 7)) = some ([0x1234#16], [], 2#16, 7#16) := by decide

/-- V-TR-5. -/
theorem test_trapHalt : (after (step (bench 2#16 0xFF25#16 0b010#3 [] []))).map
    (fun t => (t.fsm, t.stopCause, t.pc, t.executeReturn)) = some (.halted, .halt, 3#16, some .halt) := by decide

/-- V-TR-7. -/
theorem test_trapInvalid : (after (step (bench 1#16 0xF020#16 0b010#3 [] []))).map
    (fun t => (t.diag, t.pc, t.fsm)) = some ([⟨.invalidTrap, 1#16, 0xF020#16⟩], 2#16, .fetch) := by decide

/-- V-INV-3. -/
theorem test_invalid3 : (after (step (bench 0#16 0x3000#16 0b010#3 [] []))).map
    (fun t => (t.diag, t.pc)) = some ([⟨.invalidInstruction, 0#16, 0x3000#16⟩], 1#16) := by decide

/-- V-INV-4. -/
theorem test_invalid4 : (after (step (bench 0#16 0x4FFF#16 0b010#3 [] []))).map
    (fun t => (t.diag, t.pc)) = some ([⟨.invalidInstruction, 0#16, 0x4FFF#16⟩], 1#16) := by decide

/-- V-INV-8. -/
theorem test_invalid8 : (after (step (bench 0#16 0x8FFF#16 0b010#3 [] []))).map
    (fun t => (t.diag, t.pc)) = some ([⟨.invalidInstruction, 0#16, 0x8FFF#16⟩], 1#16) := by decide

/-- V-INV-12. -/
theorem test_invalid12 : (after (step (bench 0#16 0xCFFF#16 0b010#3 [] []))).map
    (fun t => (t.diag, t.pc)) = some ([⟨.invalidInstruction, 0#16, 0xCFFF#16⟩], 1#16) := by decide

/-- V-INV-13. -/
theorem test_invalid13 : (after (step (bench 0#16 0xDFFF#16 0b010#3 [] []))).map
    (fun t => (t.diag, t.pc)) = some ([⟨.invalidInstruction, 0#16, 0xDFFF#16⟩], 1#16) := by decide

/-- V-F-1. -/
theorem test_fetch_faults : (after (step (bench 50#16 0#16 0b010#3 [] []))).map
    (fun t => (t.fsm, t.faultAddr, t.faultAccess, t.pc)) = some (.faulted, 0x32#16, .fetch, 50#16) := by decide

/-! ## Host calls: the vectors of L2-8 -/

/-- The block before `execute`. -/
def benchIdle : State := State.resetWith .z 0#16 .fetch

/-- The block after a TRAP HALT, at address 0. -/
def benchHalted : State := { benchIdle with fsm := .halted, stopCause := .halt, pc := 1#16 }

/-- The block after a fetch at 50. -/
def benchFaulted : State :=
  { benchIdle with fsm := .faulted, stopCause := .addressError, faultAddr := 50#16, faultAccess := .fetch, pc := 50#16 }

/-- V-H-1. -/
theorem test_loadWord : (benchIdle.hostCall (.loadWord 49 0x1234#16)).1 = .accepted ∧
    (benchIdle.hostCall (.loadWord 49 0x1234#16)).2.mem.read 49 = 0x1234#16 := by decide

/-- V-H-2 and V-H-3. -/
theorem test_loadWord_out_of_range : benchIdle.hostCall (.loadWord 50 0x1234#16) = (.addressError, benchIdle) ∧
    benchIdle.hostCall (.loadWord (-1) 0x1234#16) = (.addressError, benchIdle) := by decide

/-- V-H-4. -/
theorem test_execute_refused_in_halted : benchHalted.hostCall .execute = (.refused, benchHalted) := by decide

/-- V-H-5. -/
theorem test_loadWord_refused_in_faulted :
    benchFaulted.hostCall (.loadWord 0 0#16) = (.refused, benchFaulted) := by decide

/-- V-H-6. -/
theorem test_reset_from_halted : (benchHalted.hostCall .reset).2.fsm = .idle ∧
    (benchHalted.hostCall .reset).2.reg 5 = 5#16 ∧ (benchHalted.hostCall .reset).2.pc = 0#16 := by decide

/-! ## Witnesses: for every statement that has hypotheses, a state and operands that meet them, at the boundaries of each clause -/

theorem witness_DecodeEncodeRoundTrip : Instr.wf (.br 0b111#3 0x1FF#9) = true ∧ Instr.wf (.addReg 7 0 7) = true ∧
    Instr.wf (.str 7 7 0b100000#6) = true ∧ Instr.wf (.trapInvalid 0x22#8) = true := by decide

/-- V-ALU-6, V-ALU-18, V-TR-3 and V-TR-5 against the same words with the ignored bits zero, and an invalid vector beside OUT's. -/
theorem witness_IgnoredBitsHaveNoEffect :
    0x1658#16 = 0b0001#4 ++ 3#3 ++ 1#3 ++ 0b0#1 ++ 0b11#2 ++ 0#3 ∧
    0x505A#16 = 0b0101#4 ++ 0#3 ++ 1#3 ++ 0b0#1 ++ 0b11#2 ++ 2#3 ∧
    0x9A3F#16 = 0b1001#4 ++ 5#3 ++ 0#3 ++ 0b111111#6 ∧
    0xF121#16 = 0b1111#4 ++ 1#4 ++ 0x21#8 ∧ 0xFF25#16 = 0b1111#4 ++ 15#4 ++ 0x25#8 ∧
    0xFF22#16 = 0b1111#4 ++ 15#4 ++ 0x22#8 ∧ 0x22#8 ≠ 0x21#8 ∧ 0x22#8 ≠ 0x25#8 := by decide

theorem witness_TrapIsDecodedOnItsVector :
    (0x20#8 ≠ 0x21#8 ∧ 0x20#8 ≠ 0x25#8) ∧ (0x26#8 ≠ 0x21#8 ∧ 0x26#8 ≠ 0x25#8) := by decide

/-- A state about to fetch, with an ADD at the top word. -/
def topAdd : State := bench 49#16 0x1642#16 0b010#3 [] []

/-- A state about to fetch past memory. -/
def pastEnd : State := bench 50#16 0#16 0b010#3 [] []

theorem witness_StepFetchesDecodesExecutes :
    (topAdd.fsm = .fetch ∧ topAdd.pc.toNat < 50) ∧ (pastEnd.fsm = .fetch ∧ 50 ≤ pastEnd.pc.toNat) := by decide

theorem witness_StoppedStatesStay :
    benchIdle.fsm = .idle ∧ benchHalted.fsm = .halted ∧ benchFaulted.fsm = .faulted := by decide

theorem witness_UnfinishedPassFinishes :
    ({ topAdd with fsm := .decode } : State).fsm = .decode ∧ ({ topAdd with fsm := .execute } : State).fsm = .execute := by
  decide

theorem witness_PlacedWordIsRunNext : topAdd.mem.wf ∧ topAdd.pc.toNat < 50 ∧ State.reset.mem.wf ∧ State.reset.pc.toNat < 50 := by
  decide

/-- The same machine with another `ir`, record and history. -/
def otherHistory (s : State) : State :=
  { s with ir := 0xABCD#16, faultAddr := 99#16, faultAccess := .store, console := [1#16], diag := [⟨.invalidTrap, 2#16, 3#16⟩] }

theorem witness_StepDependsOnlyOnProgramState : ∃ s₁ s₂ t₁ t₂ : State, s₁.fsm = .fetch ∧ s₂.fsm = .fetch ∧
    SameRegs s₁ s₂ ∧ s₂.pc = s₁.pc ∧ s₂.cc = s₁.cc ∧ SameMem s₁ s₂ ∧ s₁.mem.wf ∧ s₂.mem.wf ∧
    step s₁ = .next t₁ ∧ step s₂ = .next t₂ ∧ s₁ ≠ s₂ ∧ s₁.pc.toNat < 50 :=
  ⟨topAdd, otherHistory topAdd, _, _, rfl, rfl, fun _ => rfl, rfl, rfl, fun _ => rfl, by decide, by decide, rfl, rfl,
    by decide, by decide⟩

theorem witness_StepDependsOnlyOnProgramState_faulted : ∃ s₁ s₂ t₁ t₂ : State, s₁.fsm = .fetch ∧ s₂.fsm = .fetch ∧
    SameRegs s₁ s₂ ∧ s₂.pc = s₁.pc ∧ s₂.cc = s₁.cc ∧ SameMem s₁ s₂ ∧ s₁.mem.wf ∧ s₂.mem.wf ∧
    step s₁ = .next t₁ ∧ step s₂ = .next t₂ ∧ s₁ ≠ s₂ ∧ t₁.fsm = .faulted :=
  ⟨pastEnd, otherHistory pastEnd, _, _, rfl, rfl, fun _ => rfl, rfl, rfl, fun _ => rfl, by decide, by decide, rfl, rfl,
    by decide, by decide⟩

/-- The values of L2-2, in each clause of `SignCC`. -/
theorem witness_SetCCWritesTheSign : BitVec.toInt 0x8000#16 < 0 ∧ BitVec.toInt 0xFFFF#16 < 0 ∧
    BitVec.toInt 0x0000#16 = 0 ∧ 0 < BitVec.toInt 0x0001#16 ∧ 0 < BitVec.toInt 0x7FFF#16 := by decide

theorem witness_ConditionCodeWriters :
    (∃ t, exec (.lea 1 5#9) topAdd = .next t ∧ destination (.lea 1 5#9) = some 1 ∧ t.fsm ≠ .faulted) ∧
    (∃ t, exec (.str 0 0 0#6) topAdd = .next t ∧ destination (.str 0 0 0#6) = none) ∧
    (∃ t, exec (.ld 0 1#9) topAdd = .next t ∧ t.fsm = .faulted) :=
  ⟨⟨_, rfl, by decide, by decide⟩, ⟨_, rfl, by decide⟩, ⟨_, rfl, by decide⟩⟩

theorem witness_ConditionCodeIsOneHot :
    (∃ t, exec (.not 0 0) topAdd = .next t ∧ OneHot topAdd.cc ∧ destination (.not 0 0) = some 0 ∧ t.fsm ≠ .faulted) ∧
    (∃ t, step topAdd = .next t ∧ OneHot topAdd.cc) :=
  ⟨⟨_, rfl, by decide, by decide, by decide⟩, ⟨_, rfl, by decide⟩⟩

/-- V-BR-7, taken, and V-BR-8, not taken. -/
theorem witness_BranchOnCondition :
    (∃ k : Nat, k < 3 ∧ (0b011#3).getLsbD k = true ∧ (0b001#3).getLsbD k = true) ∧
    (∀ k : Nat, k < 3 → (0b101#3).getLsbD k = true → (0b010#3).getLsbD k = false) := by decide

theorem witness_BranchOnAllAlwaysTaken : OneHot (State.resetWith .n 0#16 .fetch).cc ∧
    OneHot (State.resetWith .z 0#16 .fetch).cc ∧ OneHot (State.resetWith .p 0#16 .fetch).cc := by decide

theorem witness_BranchTestIsAndNotEquality : (State.resetWith .z 0#16 .fetch).cc = 0b010#3 ∧
    (State.resetWith .p 0#16 .fetch).cc = 0b001#3 ∧ (State.resetWith .n 0#16 .fetch).cc = 0b100#3 := by decide

/-- V-BR-14, the largest target, V-BR-13, the least, wrapped, and V-BR-15, the target 0. -/
theorem witness_BranchTargets :
    (∃ t, exec (.br 0b111#3 0x0FF#9) (bench 50#16 0#16 0b001#3 [] []) = .next t ∧ t.pc = 305#16) ∧
    (∃ t, exec (.br 0b111#3 0x100#9) (bench 1#16 0#16 0b001#3 [] []) = .next t ∧ t.pc = 0xFF01#16) ∧
    (∃ t, exec (.br 0b111#3 0x1F5#9) (bench 11#16 0#16 0b001#3 [] []) = .next t ∧ t.pc = 0#16) ∧
    0b111#3 &&& (bench 50#16 0#16 0b001#3 [] []).cc ≠ 0b000#3 ∧
    1 ≤ (bench 1#16 0#16 0b001#3 [] []).pc.toNat ∧ (bench 50#16 0#16 0b001#3 [] []).pc.toNat ≤ 50 :=
  ⟨⟨_, rfl, by decide⟩, ⟨_, rfl, by decide⟩, ⟨_, rfl, by decide⟩, by decide, by decide, by decide⟩

/-- V-BR-12, and the same word at the top of memory. -/
theorem witness_SelfBranchNeverEnds :
    ((bench 7#16 0x0FFF#16 0b001#3 [] []).fsm = .fetch ∧ (bench 7#16 0x0FFF#16 0b001#3 [] []).pc.toNat < 50 ∧
      0b111#3 &&& (bench 7#16 0x0FFF#16 0b001#3 [] []).cc ≠ 0b000#3 ∧
      decode ((bench 7#16 0x0FFF#16 0b001#3 [] []).mem.read 7) = .br 0b111#3 0b111111111#9) ∧
    decode ((bench 49#16 0x0FFF#16 0b001#3 [] []).mem.read 49) = .br 0b111#3 0b111111111#9 := by decide

theorem witness_AddressCalculatorIsExact :
    ((bench 50#16 0#16 0b010#3 [] []).eaPcRel 0x1FF#9).toNat = 49 ∧
    ((bench 50#16 0#16 0b010#3 [] []).eaPcRel 0#9).toNat = 50 ∧
    ((bench 1#16 0#16 0b010#3 [] []).eaPcRel 0x1FF#9).toNat = 0 ∧
    ((bench 1#16 0#16 0b010#3 [] []).eaPcRel 0x1FE#9).toNat = 65535 ∧
    (benchIdle.eaBaseOff 7 0x1F#6).toNat = 38 ∧ (benchIdle.eaBaseOff 0 0x3F#6).toNat = 65535 := by decide

theorem witness_LoadPcRelative : ((bench 49#16 0#16 0b010#3 [] []).eaPcRel 0#9).toNat < 50 ∧
    50 ≤ ((bench 49#16 0#16 0b010#3 [] []).eaPcRel 1#9).toNat := by decide

/-- V-LS-9's base, 49. -/
theorem witness_LoadBaseOffset : ((bench 1#16 0#16 0b010#3 [(5, 49#16)] []).eaBaseOff 5 0#6).toNat < 50 ∧
    50 ≤ ((bench 1#16 0#16 0b010#3 [(5, 49#16)] []).eaBaseOff 5 1#6).toNat := by decide

theorem witness_StoreBaseOffset : (bench 1#16 0#16 0b010#3 [(5, 49#16)] [(3, 7#16)]).mem.wf ∧
    ((bench 1#16 0#16 0b010#3 [(5, 49#16)] [(3, 7#16)]).eaBaseOff 5 0#6).toNat < 50 ∧
    50 ≤ ((bench 1#16 0#16 0b010#3 [(5, 49#16)] [(3, 7#16)]).eaBaseOff 5 1#6).toNat := by decide

/-- A pointer word 49, one 50, and pointer addresses 49 and 50. -/
def pointers : State := bench 40#16 0#16 0b010#3 [] [(48, 49#16), (49, 50#16)]

theorem witness_LoadIndirect :
    ((pointers.eaPcRel 8#9).toNat < 50 ∧ (pointers.mem.read (pointers.eaPcRel 8#9).toNat).toNat < 50) ∧
    50 ≤ (pointers.eaPcRel 10#9).toNat ∧
    ((pointers.eaPcRel 9#9).toNat < 50 ∧ 50 ≤ (pointers.mem.read (pointers.eaPcRel 9#9).toNat).toNat) := by decide

theorem witness_StoreIndirect : pointers.mem.wf ∧
    ((pointers.eaPcRel 8#9).toNat < 50 ∧ (pointers.mem.read (pointers.eaPcRel 8#9).toNat).toNat < 50) ∧
    50 ≤ (pointers.eaPcRel 10#9).toNat ∧
    ((pointers.eaPcRel 9#9).toNat < 50 ∧ 50 ≤ (pointers.mem.read (pointers.eaPcRel 9#9).toNat).toNat) := by decide

theorem witness_MemoryPort : pointers.mem.wf ∧ BitVec.toNat 49#16 < 50 ∧ 50 ≤ BitVec.toNat 50#16 ∧
    pastEnd.mem.wf ∧ pastEnd.fsm = .fetch ∧ pastEnd.pc = 50#16 := by decide

/-- STR and STI to the word at `pc`, 49. -/
theorem witness_StoreIsSeenByTheNextFetch :
    (∃ t, (bench 49#16 0#16 0b010#3 [(5, 49#16)] []).mem.wf ∧
      (bench 49#16 0#16 0b010#3 [(5, 49#16)] []).eaBaseOff 5 0#6 = 49#16 ∧
      exec (.str 3 5 0#6) (bench 49#16 0#16 0b010#3 [(5, 49#16)] []) = .next t) ∧
    (∃ t, (bench 49#16 0#16 0b010#3 [] [(48, 49#16)]).mem.wf ∧
      ((bench 49#16 0#16 0b010#3 [] [(48, 49#16)]).eaPcRel 0x1FF#9).toNat < 50 ∧
      (bench 49#16 0#16 0b010#3 [] [(48, 49#16)]).mem.read
        ((bench 49#16 0#16 0b010#3 [] [(48, 49#16)]).eaPcRel 0x1FF#9).toNat = 49#16 ∧
      exec (.sti 3 0x1FF#9) (bench 49#16 0#16 0b010#3 [] [(48, 49#16)]) = .next t) :=
  ⟨⟨_, by decide, by decide, rfl⟩, ⟨_, by decide, by decide, by decide, rfl⟩⟩

theorem witness_TrapOutDelivers : BitVec.toNat 255#16 < 256 ∧ BitVec.toNat 0#16 < 256 := by decide

theorem witness_TrapHaltStops : ∃ t, exec .trapHalt topAdd = .next t ∧ t.fsm = .halted := ⟨_, rfl, by decide⟩

theorem witness_TrapInvalidVectorIsLogged : (0x22#8 ≠ 0x21#8 ∧ 0x22#8 ≠ 0x25#8) ∧ (0x24#8 ≠ 0x21#8 ∧ 0x24#8 ≠ 0x25#8) := by
  decide

theorem witness_InvalidOpcodeIsLogged : decode 0x3000#16 = .invalid3 ∧ decode 0x4FFF#16 = .invalid4 ∧
    decode 0x8FFF#16 = .invalid8 ∧ decode 0xCFFF#16 = .invalid12 ∧ decode 0xDFFF#16 = .invalid13 := by decide

theorem witness_AddressErrorRaisingPoints :
    raisingPoint (.ld 0 1#9) topAdd = some (50#16, .load) ∧ raisingPoint (.ld 0 0#9) topAdd = none ∧
    raisingPoint (.sti 0 9#9) pointers = some (50#16, .store) ∧ raisingPoint (.sti 0 10#9) pointers = some (50#16, .load) ∧
    pastEnd.fsm = .fetch ∧ 50 ≤ pastEnd.pc.toNat := by decide

/-- V-LS-9, a fault of an instruction fetched below 50. -/
theorem witness_AddressErrorRaisingPoints_faulted : ∃ t, (bench 0#16 0x6D41#16 0b010#3 [(5, 49#16)] []).fsm = .fetch ∧
    (bench 0#16 0x6D41#16 0b010#3 [(5, 49#16)] []).pc.toNat < 50 ∧
    step (bench 0#16 0x6D41#16 0b010#3 [(5, 49#16)] []) = .next t ∧ t.fsm = .faulted :=
  ⟨_, rfl, by decide, rfl, by decide⟩

/-- V-F-1, a FETCH fault, and V-LS-9, a LOAD fault. -/
theorem witness_AddressErrorIsPrecise :
    (∃ t, pastEnd.fsm = .fetch ∧ step pastEnd = .next t ∧ t.fsm = .faulted ∧ t.faultAccess = .fetch) ∧
    (∃ t u, (bench 0#16 0x6D41#16 0b010#3 [(5, 49#16)] []).fsm = .fetch ∧
      step (bench 0#16 0x6D41#16 0b010#3 [(5, 49#16)] []) = .next t ∧ t.fsm = .faulted ∧ t.faultAccess ≠ .fetch ∧
      step t = .next u) :=
  ⟨⟨_, rfl, rfl, by decide, by decide⟩, ⟨_, _, rfl, rfl, by decide, by decide, rfl⟩⟩

/-- One pass to each of FETCH, HALTED (V-TR-4) and FAULTED. -/
theorem witness_PassEndsInFetchHaltedOrFaulted :
    (∃ t, topAdd.fsm = .fetch ∧ step topAdd = .next t ∧ t.fsm = .fetch) ∧
    (∃ t, (bench 2#16 0xF025#16 0b010#3 [] []).fsm = .fetch ∧
      step (bench 2#16 0xF025#16 0b010#3 [] []) = .next t ∧ t.fsm = .halted) ∧
    (∃ t, pastEnd.fsm = .fetch ∧ step pastEnd = .next t ∧ t.fsm = .faulted) :=
  ⟨⟨_, rfl, rfl, by decide⟩, ⟨_, rfl, rfl, by decide⟩, ⟨_, rfl, rfl, by decide⟩⟩

/-- A taken BR (V-BR-14), a step that fetches at 49, and a step at 50. -/
theorem witness_PcChangesOnlyAtThreePoints :
    (∃ t, exec (.br 0b111#3 0x0FF#9) (bench 50#16 0#16 0b001#3 [] []) = .next t ∧ t.pc ≠ 50#16) ∧
    (∃ t, topAdd.fsm = .fetch ∧ topAdd.pc.toNat < 50 ∧ step topAdd = .next t) ∧
    (∃ t, pastEnd.fsm = .fetch ∧ 50 ≤ pastEnd.pc.toNat ∧ step pastEnd = .next t) ∧
    (benchHalted.hostCall .reset).2.pc ≠ benchHalted.pc :=
  ⟨⟨_, rfl, by decide⟩, ⟨_, rfl, by decide, rfl⟩, ⟨_, rfl, by decide, rfl⟩, by decide⟩

/-- STR and STI as handlers, V-LS-11 and V-LS-17 as steps, and a `loadWord`. -/
theorem witness_MemoryWrittenOnlyByStores :
    (∃ s t : State, s.mem.wf ∧ exec (.str 2 1 2#6) s = .next t ∧ t.mem.read 3 ≠ s.mem.read 3) ∧
    (∃ s t : State, s.mem.wf ∧ exec (.sti 7 8#9) s = .next t ∧ t.mem.read 49 ≠ s.mem.read 49) ∧
    (∃ s t : State, s.mem.wf ∧ s.fsm = .fetch ∧ step s = .next t ∧ t.mem.read 14 ≠ s.mem.read 14) ∧
    (∃ s t : State, s.mem.wf ∧ s.fsm = .fetch ∧ step s = .next t ∧ t.mem.read 13 ≠ s.mem.read 13) ∧
    (∃ s : State, s.mem.wf ∧ (s.hostCall (.loadWord 49 1#16)).2.mem.read 49 ≠ s.mem.read 49) :=
  ⟨⟨topAdd, _, by decide, rfl, by decide⟩,
   ⟨pointers, _, by decide, rfl, by decide⟩,
   ⟨bench 0#16 0x7442#16 0b010#3 [(1, 0x0C#16), (2, 0xBEEF#16)] [], _, by decide, rfl, rfl, by decide⟩,
   ⟨bench 3#16 0xB807#16 0b010#3 [(4, 0xFFF9#16)] [(11, 0x0D#16)], _, by decide, rfl, rfl, by decide⟩,
   ⟨benchIdle, by decide, by decide⟩⟩

theorem witness_RegistersWrittenOnlyByDestination :
    (∃ t, exec (.addReg 3 1 2) topAdd = .next t ∧ destination (.addReg 3 1 2) ≠ some 1) ∧
    (∃ t, exec (.ld 0 1#9) topAdd = .next t ∧ t.fsm = .faulted) :=
  ⟨⟨_, rfl, by decide⟩, ⟨_, rfl, by decide⟩⟩

/-- A step that emits one event (V-TR-1's word), and one in a stopped state. -/
theorem witness_TracesOnlyGrow :
    (∃ t, step (bench 1#16 0xF021#16 0b010#3 [] []) = .next t ∧ t.console = [0#16]) ∧
    (∃ t, benchHalted.fsm = .halted ∧ step benchHalted = .next t) :=
  ⟨⟨_, rfl, by decide⟩, ⟨_, rfl, rfl⟩⟩

theorem witness_StepKeepsInvariant :
    (∃ t, topAdd.Inv ∧ step topAdd = .next t) ∧ (∃ t, pastEnd.Inv ∧ step pastEnd = .next t) ∧
    (∃ t, benchFaulted.Inv ∧ step benchFaulted = .next t) :=
  ⟨⟨_, by decide, rfl⟩, ⟨_, by decide, rfl⟩, ⟨_, by decide, rfl⟩⟩

theorem witness_HostCallsKeepInvariant : benchIdle.Inv ∧ benchHalted.Inv := by decide

/-- Reset, a word loaded, the run started, one step: a reachable state that has left reset. -/
theorem witness_ReachableStatesMeetInvariant : ∃ s : State, Reachable s ∧ s.console = [0#16] :=
  ⟨_, .step (.call .execute (.call (.loadWord 0 0xF021#16) .reset)) rfl, rfl⟩

theorem witness_LoadWordCall : benchIdle.mem.wf ∧ benchIdle.fsm = .idle ∧ (0 : Int) ≤ 0 ∧ (49 : Int) < 50 ∧
    (-1 : Int) < 0 ∧ (50 : Int) ≤ 50 ∧ benchFaulted.mem.wf ∧ benchFaulted.fsm ≠ .idle := by decide

theorem witness_ExecuteCall : benchIdle.fsm = .idle ∧ benchHalted.fsm ≠ .idle := by decide

theorem witness_ReadAccessors : benchIdle.fsm = .idle ∧ topAdd.fsm = .fetch ∧ benchFaulted.fsm = .faulted ∧
    benchFaulted.stopCause = .addressError ∧ benchFaulted.hostReadMem 49 = some 0#16 := by decide

end Sys2Proof.Tests
end

section
/-! The layer of rules the statements of 10_state.md rest on: what a handler can do, what a step can do, what a host call can do. -/

namespace Sys2Proof.Machine

section Fields

variable (s : State)

@[simp] theorem State.writeResult_pc (d : Reg) (v : Word) : (s.writeResult d v).pc = s.pc := rfl
@[simp] theorem State.writeResult_cc (d : Reg) (v : Word) : (s.writeResult d v).cc = ccOf v := rfl
@[simp] theorem State.writeResult_fsm (d : Reg) (v : Word) : (s.writeResult d v).fsm = .fetch := rfl
@[simp] theorem State.writeResult_stopCause (d : Reg) (v : Word) :
    (s.writeResult d v).stopCause = s.stopCause := rfl
@[simp] theorem State.writeResult_mem (d : Reg) (v : Word) : (s.writeResult d v).mem = s.mem := rfl
@[simp] theorem State.writeResult_reg (d r : Reg) (v : Word) :
    (s.writeResult d v).reg r = if r = d then v else s.reg r := s.setReg_reg d r v

/-- The state in which the handler of the word at `pc` runs: the word in `ir`, `pc` one higher, the state machine in EXECUTE (40_cycle.md R121 to R123). -/
def State.fetched (s : State) : State :=
  { s with ir := s.mem.read s.pc.toNat, pc := s.pc + 1#16, fsm := .execute }

@[simp] theorem State.fetched_pc : s.fetched.pc = s.pc + 1#16 := rfl
@[simp] theorem State.fetched_cc : s.fetched.cc = s.cc := rfl
@[simp] theorem State.fetched_mem : s.fetched.mem = s.mem := rfl
@[simp] theorem State.fetched_stopCause : s.fetched.stopCause = s.stopCause := rfl

end Fields

/-! ## What a handler can do -/

/-- `HandlerEffect s i t`: `t` is one of the states the handler of `i` may leave `s` in.
One constructor per way a handler ends; `exec_effect` ties it to `exec`. -/
inductive HandlerEffect (s : State) : Instr → State → Prop where
  | result {i : Instr} {d : Reg} (hd : destination i = some d) (v : Word) :
      HandlerEffect s i (s.writeResult d v)
  | store {i : Instr} (hd : destination i = none) {a : Word} (ha : a.toNat < 50) (v : Word) :
      HandlerEffect s i (State.complete { s with mem := s.mem.write a.toNat v })
  | fault {i : Instr} {a : Word} (ha : 50 ≤ a.toNat) (k : Access) :
      HandlerEffect s i (s.raiseAddressError a k)
  | taken {c : BitVec 3} (hc : c &&& s.cc ≠ 0b000#3) (off : BitVec 9) :
      HandlerEffect s (.br c off) (State.complete { s with pc := s.eaPcRel off })
  | notTaken (c : BitVec 3) (off : BitVec 9) : HandlerEffect s (.br c off) s.complete
  | softError {i : Instr} (hd : destination i = none) (k : SoftErrorKind) :
      HandlerEffect s i (s.logSoftError k).complete
  | out : HandlerEffect s .trapOut (s.emitOut (s.reg 0)).complete
  | halt : HandlerEffect s .trapHalt s.stopHalted

/-- A read that faults is an effect of any instruction, so a read has the effect of what follows it. -/
theorem HandlerEffect.loadThen {s : State} {i : Instr} (a : Word) {k : Word → State}
    (hk : ∀ v, HandlerEffect s i (k v)) : HandlerEffect s i (s.loadThen a k) := by
  rcases s.loadThen_cases a k with ⟨-, h⟩ | ⟨ha, h⟩
  · exact h ▸ hk _
  · exact h ▸ .fault ha _

theorem HandlerEffect.storeWord {s : State} {i : Instr} (hd : destination i = none) (a v : Word) :
    HandlerEffect s i (s.storeWord a v) := by
  rcases s.storeWord_cases a v with ⟨ha, h⟩ | ⟨ha, h⟩
  · exact h ▸ .store hd ha v
  · exact h ▸ .fault ha _

/-- BR's one expression for both outcomes has the effect of the one its test selects. -/
theorem HandlerEffect.branch (s : State) (c : BitVec 3) (off : BitVec 9) : HandlerEffect s (.br c off)
    (State.complete { s with pc := if s.condHolds c then s.eaPcRel off else s.pc }) := by
  by_cases hc : c &&& s.cc = 0b000#3
  · simpa [State.condHolds, hc] using HandlerEffect.notTaken c off
  · simpa [State.condHolds, hc] using HandlerEffect.taken hc off

/-- Whatever `exec` answers is one of the effects of a handler. -/
theorem exec_effect {i : Instr} {s t : State} (h : exec i s = .next t) : HandlerEffect s i t := by
  cases i <;> obtain rfl := Host.Outcome.next.inj h
  case br c off => exact .branch s c off
  case addReg | addImm | andReg | andImm | not | lea => exact .result rfl _
  case ld | ldr => exact .loadThen _ fun v => .result rfl v
  case ldi => exact .loadThen _ fun p => .loadThen p fun v => .result rfl v
  case str => exact .storeWord rfl _ _
  case sti => exact .loadThen _ fun p => .storeWord rfl p _
  case trapOut => exact .out
  case trapHalt => exact .halt
  case trapInvalid => exact .softError rfl .invalidTrap
  case invalid3 | invalid4 | invalid8 | invalid12 | invalid13 => exact .softError rfl .invalidInstruction

/-! ## What a step can do -/

/-- A step from FETCH below 50 runs the handler of the word at `pc`. -/
theorem step_of_fetch_lt {s : State} (hf : s.fsm = .fetch) (hpc : s.pc.toNat < 50) :
    step s = exec (decode (s.mem.read s.pc.toNat)) s.fetched := by
  simp [step, hf, State.fetchPhase, s.fetchWord_of_lt hpc, State.decodePhase, State.executePhase,
    State.fetched]

/-- A step from FETCH at 50 or above takes the fetch's `AddressError`. -/
theorem step_of_fetch_ge {s : State} (hf : s.fsm = .fetch) (hpc : 50 ≤ s.pc.toNat) :
    step s = .next (s.raiseAddressError s.pc .fetch) := by
  simp [step, hf, State.fetchPhase, s.fetchWord_of_ge hpc]

/-- All a step can do: nothing in a stopped state, the fetch's `AddressError`, a pass, or the rest of a pass. -/
theorem step_cases {s t : State} (h : step s = .next t) :
    ((s.fsm = .idle ∨ s.fsm = .halted ∨ s.fsm = .faulted) ∧ t = s) ∨
    (s.fsm = .fetch ∧ 50 ≤ s.pc.toNat ∧ t = s.raiseAddressError s.pc .fetch) ∨
    (s.fsm = .fetch ∧ s.pc.toNat < 50 ∧
      exec (decode (s.mem.read s.pc.toNat)) s.fetched = .next t) ∨
    ((s.fsm = .decode ∨ s.fsm = .execute) ∧ exec (decode s.ir) { s with fsm := .execute } = .next t) := by
  cases hf : s.fsm
  case fetch =>
    rcases Nat.lt_or_ge s.pc.toNat 50 with hpc | hpc
    · exact .inr (.inr (.inl ⟨rfl, hpc, step_of_fetch_lt hf hpc ▸ h⟩))
    · exact .inr (.inl ⟨rfl, hpc, (Host.Outcome.next.inj (step_of_fetch_ge hf hpc ▸ h)).symm⟩)
  all_goals simp only [step, hf] at h
  case idle | halted | faulted => exact .inl ⟨by simp, (Host.Outcome.next.inj h).symm⟩
  case decode => exact .inr (.inr (.inr ⟨.inl rfl, h⟩))
  case execute =>
    have hs : { s with fsm := .execute } = s := by rw [← hf]
    exact .inr (.inr (.inr ⟨.inr rfl, hs ▸ h⟩))

/-! ## What a host call can do -/

/-- All a `loadWord` can do to the state: the word stored in IDLE, or nothing. -/
theorem State.hostLoadWord_cases (s : State) (a : Int) (w : Word) :
    (s.fsm = .idle ∧ a.toNat < 50 ∧ (s.hostLoadWord a w).2 = { s with mem := s.mem.write a.toNat w }) ∨
    (s.hostLoadWord a w).2 = s := by
  unfold State.hostLoadWord
  split_ifs with hf ha
  · exact .inl ⟨hf, (Int.toNat_lt ha.1).mpr ha.2, rfl⟩
  · exact .inr rfl
  · exact .inr rfl

/-- All an `execute` can do to the state: from IDLE to FETCH, or nothing. -/
theorem State.hostExecute_cases (s : State) :
    (s.fsm = .idle ∧ s.hostExecute.2 = { s with fsm := .fetch }) ∨ s.hostExecute.2 = s := by
  unfold State.hostExecute
  split_ifs with hf
  · exact .inl ⟨hf, rfl⟩
  · exact .inr rfl

end Sys2Proof.Machine
end

section
/-! The statements of 10_state.md on `cc`, the registers, `pc` and the read accessors. -/

namespace Sys2Proof.Machine

/-- An instruction without a destination register leaves `cc` as it was, and so does one that faults (10_state.md R32). -/
theorem HandlerEffect.cc_eq {i : Instr} {s t : State} (he : HandlerEffect s i t)
    (h : destination i = none ∨ t.fsm = .faulted) : t.cc = s.cc := by
  cases he with
  | result hd v => simp [hd] at h
  | store | fault | taken | notTaken | softError | out | halt => rfl

/-- An instruction that does not fault leaves in `cc` the sign of its destination register. -/
theorem HandlerEffect.signCC {i : Instr} {s t : State} {d : Reg} (he : HandlerEffect s i t)
    (hd : destination i = some d) (ht : t.fsm ≠ .faulted) : SignCC (t.reg d) t.cc := by
  cases he with
  | result hd' v =>
    obtain rfl := Option.some.inj (hd'.symm.trans hd)
    simpa using ccOf_sign v
  | fault => exact absurd rfl ht
  | store hn | softError hn => simp [hn] at hd
  | taken | notTaken | out | halt => simp [destination] at hd

/-- `cc` after a handler is as before, or what `SetCC` wrote. -/
theorem HandlerEffect.cc_eq_or_ccOf {i : Instr} {s t : State} (he : HandlerEffect s i t) :
    t.cc = s.cc ∨ ∃ v, t.cc = ccOf v := by
  cases he with
  | result hd v => exact .inr ⟨v, rfl⟩
  | store | fault | taken | notTaken | softError | out | halt => exact .inl rfl

theorem HandlerEffect.oneHot {i : Instr} {s t : State} (he : HandlerEffect s i t) (hs : OneHot s.cc) :
    OneHot t.cc := by
  rcases he.cc_eq_or_ccOf with h | ⟨v, h⟩
  · exact h ▸ hs
  · exact h ▸ ccOf_oneHot v

/-- The sign of a value is one of the three one-hot values. -/
theorem SignCC.oneHot {v : Word} {c : BitVec 3} (h : SignCC v c) : OneHot c := by
  obtain ⟨hn, hz, hp⟩ := h
  rcases lt_trichotomy v.toInt 0 with hv | hv | hv
  · exact .inl (hn hv)
  · exact .inr (.inl (hz hv))
  · exact .inr (.inr (hp hv))

theorem step_keeps_oneHot {s t : State} (h : step s = .next t) (hs : OneHot s.cc) : OneHot t.cc := by
  rcases step_cases h with ⟨-, rfl⟩ | ⟨-, -, rfl⟩ | ⟨-, -, he⟩ | ⟨-, he⟩
  · exact hs
  · exact hs
  · exact (exec_effect he).oneHot hs
  · exact (exec_effect he).oneHot hs

theorem ccResetBits_oneHot (c : CcReset) : OneHot (ccResetBits c) := by
  cases c <;> decide

/-- `pc` after a handler is as before, or the target of a taken BR (10_state.md R26). -/
theorem HandlerEffect.pc_eq_or_taken {i : Instr} {s t : State} (he : HandlerEffect s i t) :
    t.pc = s.pc ∨ ∃ (c : BitVec 3) (off : BitVec 9), i = .br c off ∧ c &&& s.cc ≠ 0b000#3 ∧
      t.pc = s.pc + off.signExtend 16 := by
  cases he with
  | taken hc off => exact .inr ⟨_, off, rfl, hc, rfl⟩
  | result | store | fault | notTaken | softError | out | halt => exact .inl rfl

/-- A host call other than `reset` leaves `pc` as it was. -/
theorem State.hostCall_pc (s : State) (c : HostCall) :
    (s.hostCall c).2.pc = s.pc ∨ (c = .reset ∧ (s.hostCall c).2.pc = 0x0000#16) := by
  cases c with
  | reset => exact .inr ⟨rfl, rfl⟩
  | loadWord a w =>
    rcases s.hostLoadWord_cases a w with ⟨-, -, h⟩ | h <;> simp [State.hostCall, h]
  | execute =>
    rcases s.hostExecute_cases with ⟨-, h⟩ | h <;> simp [State.hostCall, h]

theorem HandlerEffect.reg_eq {i : Instr} {s t : State} (he : HandlerEffect s i t) {r : Reg}
    (hr : destination i ≠ some r) : t.reg r = s.reg r := by
  cases he with
  | result hd v =>
    have hne : r ≠ _ := fun e => hr (e ▸ hd)
    rw [State.writeResult_reg, if_neg hne]
  | store | fault | taken | notTaken | softError | out | halt => rfl

theorem HandlerEffect.sameRegs_of_faulted {i : Instr} {s t : State} (he : HandlerEffect s i t)
    (ht : t.fsm = .faulted) : SameRegs s t := by
  cases he with
  | fault => exact fun _ => rfl
  | result | store | taken | notTaken | softError | out | halt => cases ht

theorem State.hostMayRead_iff (s : State) :
    s.hostMayRead = true ↔ s.fsm = .idle ∨ s.fsm = .halted ∨ s.fsm = .faulted := by
  unfold State.hostMayRead
  cases s.fsm <;> simp

/-- Settles O23: a handler with a destination ends in a result write or a fault, and every other one leaves `cc`. -/
theorem conditionCodeWriters : Obligations.ConditionCodeWriters := fun _ _ _ h =>
  have he := exec_effect h
  ⟨fun _ hd ht => he.signCC hd ht, fun hd => he.cc_eq (.inl hd), fun ht => he.cc_eq (.inr ht)⟩

/-- Settles O24: reset gives a one-hot value, and a handler leaves `cc` or writes it by `SetCC`. -/
theorem conditionCodeIsOneHot : Obligations.ConditionCodeIsOneHot :=
  ⟨fun c _ _ => ccResetBits_oneHot c, ccResetBits_oneHot _,
    fun _ _ _ h => (exec_effect h).oneHot, fun _ _ => step_keeps_oneHot,
    fun _ _ _ _ h hd ht =>
      have hsign := (exec_effect h).signCC hd ht
      ⟨hsign.oneHot, hsign⟩⟩

/-- Settles O47, by what the handler, the fetch and the host calls do to `pc`. -/
theorem pcChangesOnlyAtThreePoints : Obligations.PcChangesOnlyAtThreePoints := by
  refine ⟨fun i s t h => (exec_effect h).pc_eq_or_taken, fun s t hf hpc h => ?_,
    fun s t hf hpc h => ?_, State.hostCall_pc⟩
  · rw [step_of_fetch_lt hf hpc] at h
    exact (exec_effect h).pc_eq_or_taken
  · rw [step_of_fetch_ge hf hpc] at h
    obtain rfl := Host.Outcome.next.inj h
    rfl

/-- Settles O49: only the result write touches a register, and it does not fault. -/
theorem registersWrittenOnlyByDestination : Obligations.RegistersWrittenOnlyByDestination :=
  fun _ _ _ h => ⟨fun _ => (exec_effect h).reg_eq, (exec_effect h).sameRegs_of_faulted⟩

/-- Settles O22, by what `ccOf` computes. -/
theorem setCCWritesTheSign : Obligations.SetCCWritesTheSign := fun _ v =>
  ⟨ccOf_sign v, ccOf_oneHot v, rfl⟩

/-- Settles O58: the three guarded accessors answer exactly where `hostMayRead` holds. -/
theorem readAccessors : Obligations.ReadAccessors := by
  intro s r a
  refine ⟨fun h => ?_, fun h => ?_, rfl, rfl, fun h => if_pos h, rfl, rfl, rfl⟩
  · have hm := s.hostMayRead_iff.mpr h
    exact ⟨if_pos hm, if_pos hm, if_pos hm⟩
  · have hm : ¬ s.hostMayRead = true := by
      rw [s.hostMayRead_iff]
      rcases h with h | h | h <;> simp [h]
    exact ⟨if_neg hm, if_neg hm, if_neg hm⟩

end Sys2Proof.Machine
end

section
/-! The invariant of the states between steps, kept by every step and every host call. -/

namespace Sys2Proof.Machine

/-- What the invariant leaves of a state in which a handler runs: the run has not stopped, and `pc` is the address of a memory word + 1. -/
structure MidPass (s : State) : Prop where
  oneHot : OneHot s.cc
  memWf : s.mem.wf
  running : s.stopCause = .none
  pcPos : 1 ≤ s.pc.toNat
  pcLe : s.pc.toNat ≤ 50

/-- In IDLE and FETCH the run has not stopped. -/
theorem StopRecordHolds.running {s : State} (h : StopRecordHolds s)
    (hf : s.fsm = .idle ∨ s.fsm = .fetch) : s.stopCause = .none := by
  obtain ⟨hhalt, herr, -⟩ := h
  cases hc : s.stopCause with
  | none => rfl
  | halt => simp [hhalt.mp hc] at hf
  | addressError => simp [herr.mp hc] at hf

/-- A state whose run has not stopped, in IDLE or FETCH, has the stop record it should have. -/
theorem StopRecordHolds.of_running {s : State} (hc : s.stopCause = .none)
    (hf : s.fsm = .idle ∨ s.fsm = .fetch) : StopRecordHolds s := by
  rcases hf with hf | hf <;> simp [StopRecordHolds, hc, hf]

/-- The fetch of a word turns the invariant into `MidPass`. -/
theorem State.Inv.fetched_midPass {s : State} (hs : s.Inv) (hf : s.fsm = .fetch)
    (hpc : s.pc.toNat < 50) : MidPass s.fetched := by
  obtain ⟨hcc, hm, -, hr, -, -⟩ := hs
  have hinc : (s.pc + 1#16).toNat = s.pc.toNat + 1 := by bv_omega
  exact ⟨hcc, hm, hr.running (.inr hf), by simp [hinc], by simpa [hinc] using hpc⟩

/-- A sign-extended PCoffset9 is at most 255, or a negative number from -256 on, wrapped (30_encoding.md R96). -/
theorem sext9_range (off : BitVec 9) : (sext9 off).toNat ≤ 255 ∨ 0xFF00 ≤ (sext9 off).toNat := by
  have hext : (sext9 off).toInt = off.toInt := BitVec.toInt_signExtend_of_le (by decide)
  have hlt := BitVec.toInt_lt (x := off)
  have hle := BitVec.le_toInt (x := off)
  rw [← hext, BitVec.toInt_eq_toNat_cond] at hlt hle
  split at hlt <;> omega

/-- A branch from an address below 50 stays in the range of `pc` (41_branch.md R144). -/
theorem branchTarget_inRange {p : Word} (hpos : 1 ≤ p.toNat) (hle : p.toNat ≤ 50) (off : BitVec 9) :
    PcInRange (p + sext9 off) := by
  have hadd : (p + sext9 off).toNat = (p.toNat + (sext9 off).toNat) % 2 ^ 16 := BitVec.toNat_add ..
  have hoff := sext9_range off
  have hlt := (sext9 off).isLt
  unfold PcInRange
  omega

/-- A handler that goes on to FETCH, with the run not stopped, ends in a state with the invariant. -/
theorem State.Inv.of_running {s : State} (hcc : OneHot s.cc) (hm : s.mem.wf)
    (hr : s.stopCause = .none) (hpc : PcInRange s.pc) (hf : s.fsm = .fetch) : s.Inv :=
  ⟨hcc, hm, .inr (.inl hf), .of_running hr (.inr hf), hpc, fun hi => by simp [hf] at hi⟩

/-- An `AddressError` at an address that is not below 50 ends in a state with the invariant. -/
theorem State.Inv.raiseAddressError {s : State} (hcc : OneHot s.cc) (hm : s.mem.wf)
    (hpc : PcInRange s.pc) {a : Word} (ha : 50 ≤ a.toNat) (k : Access) :
    (s.raiseAddressError a k).Inv :=
  ⟨hcc, hm, .inr (.inr (.inr rfl)), by simp [StopRecordHolds, ha], hpc, fun hi => by simp at hi⟩

/-- Every effect a handler can have leads from `MidPass` to the invariant. -/
theorem HandlerEffect.inv {i : Instr} {s t : State} (he : HandlerEffect s i t) (hs : MidPass s) :
    t.Inv := by
  obtain ⟨hcc, hm, hr, hpos, hle⟩ := hs
  have hpc : PcInRange s.pc := .inl (by omega)
  cases he with
  | result hd v => exact .of_running (ccOf_oneHot v) hm hr hpc rfl
  | store hd ha v => exact .of_running hcc (s.mem.write_wf hm _ ha v) hr hpc rfl
  | fault ha k => exact .raiseAddressError hcc hm hpc ha k
  | taken hc off => exact .of_running hcc hm hr (branchTarget_inRange hpos hle off) rfl
  | notTaken | softError | out => exact .of_running hcc hm hr hpc rfl
  | halt =>
    exact ⟨hcc, hm, .inr (.inr (.inl rfl)), by simp [StopRecordHolds], hpc, fun hi => by simp at hi⟩

/-- The invariant at reset, for every value the spec leaves open. -/
theorem State.resetWith_inv (c : CcReset) (fa : Word) (fk : Access) : (State.resetWith c fa fk).Inv :=
  ⟨ccResetBits_oneHot c, Memory.wf_nil, .inl rfl, .of_running rfl (.inl rfl), by simp [PcInRange, State.resetWith],
    fun _ => ⟨rfl, rfl, rfl⟩⟩

/-- Settles O51, by the four things a step can do. -/
theorem stepKeepsInvariant : Obligations.StepKeepsInvariant := by
  intro s t hs h
  rcases step_cases h with ⟨-, rfl⟩ | ⟨-, hpc, rfl⟩ | ⟨hf, hpc, he⟩ | ⟨hf, -⟩
  · exact hs
  · obtain ⟨hcc, hm, -, -, hrange, -⟩ := hs
    exact .raiseAddressError hcc hm hrange hpc .fetch
  · exact (exec_effect he).inv (hs.fetched_midPass hf hpc)
  · obtain ⟨-, -, hb, -⟩ := hs
    rcases hf with hf | hf <;> simp [BetweenSteps, hf] at hb

/-- Settles O53: `reset` gives the reset state, `loadWord` a canonical memory, `execute` a FETCH with no stop recorded. -/
theorem hostCallsKeepInvariant : Obligations.HostCallsKeepInvariant := by
  intro s c hs
  have ⟨hcc, hm, hb, hr, hpc, hidle⟩ := hs
  cases c with
  | reset => exact State.resetWith_inv ..
  | loadWord a w =>
    rcases s.hostLoadWord_cases a w with ⟨-, ha, h⟩ | h
    · rw [State.hostCall, h]
      exact ⟨hcc, s.mem.write_wf hm _ ha w, hb, hr, hpc, hidle⟩
    · rwa [State.hostCall, h]
  | execute =>
    rcases s.hostExecute_cases with ⟨hf, h⟩ | h
    · rw [State.hostCall, h]
      exact .of_running hcc hm (hr.running (.inl hf)) hpc rfl
    · rwa [State.hostCall, h]

end Sys2Proof.Machine
end

section
/-! The layer of rules the statements of 20_memory.md rest on: the address sum, one written word, which handlers write memory. -/

namespace Sys2Proof.Machine

/-! ## The address calculator -/

/-- The 16-bit adder computes the integer sum of the two signed values, modulo 2^16 (20_memory.md R64). -/
theorem add_signExtend_eq_ofInt {n : Nat} (x : Word) (f : BitVec n) :
    x + f.signExtend 16 = BitVec.ofInt 16 (x.toInt + f.toInt) := by
  rw [BitVec.ofInt_add, BitVec.ofInt_toInt, BitVec.signExtend]

/-- An address and an offset of at most 15 bits are too small for their sum to wrap into memory, so the sum is below 50 exactly if the integer sum is an address of memory, and then it is that address. -/
theorem add_signExtend_exact {n : Nat} (hn : n ≤ 15) (x : Word) (f : BitVec n) :
    ((x + f.signExtend 16).toNat < 50 ↔ 0 ≤ x.toInt + f.toInt ∧ x.toInt + f.toInt < 50) ∧
    ((x + f.signExtend 16).toNat < 50 → ((x + f.signExtend 16).toNat : Int) = x.toInt + f.toInt) := by
  have hsum : (x + f.signExtend 16).toNat = ((x.toInt + f.toInt) % (2 ^ 16 : Nat)).toNat := by
    rw [add_signExtend_eq_ofInt, BitVec.toNat_ofInt]
  have hf : (f.signExtend 15).toInt = f.toInt := BitVec.toInt_signExtend_of_le hn
  have hf_lt := BitVec.toInt_lt (x := f.signExtend 15)
  have hf_le := BitVec.le_toInt (x := f.signExtend 15)
  have hx_lt := BitVec.toInt_lt (x := x)
  have hx_le := BitVec.le_toInt (x := x)
  omega

/-! ## Memory -/

/-- The read port answers exactly below 50 (20_memory.md R62). -/
theorem State.memRead_isSome_iff (s : State) (a : Word) :
    (s.memRead a).isSome = true ↔ a.toNat < 50 := by
  rcases Nat.lt_or_ge a.toNat 50 with h | h
  · simp [s.memRead_of_lt a h, h]
  · simp [s.memRead_of_ge a h, Nat.not_lt.mpr h]

/-- A word that a write changes is the one at its address, and holds what was written. -/
theorem Memory.write_changes {m : Memory} (hm : m.wf) {a b : Nat} {v : Word}
    (h : (m.write a v).read b ≠ m.read b) : b = a ∧ (m.write a v).read b = v := by
  rw [m.read_write hm] at h ⊢
  split_ifs at h ⊢ with hb
  · exact ⟨hb, rfl⟩
  · exact absurd rfl h

/-- Memory after a read is memory after what follows it, where that leaves memory as it was. -/
theorem State.loadThen_mem {s : State} (a : Word) {k : Word → State} (hk : ∀ v, (k v).mem = s.mem) :
    (s.loadThen a k).mem = s.mem := by
  rcases s.loadThen_cases a k with ⟨-, h⟩ | ⟨-, h⟩
  · rw [h, hk]
  · rw [h, s.raiseAddressError_mem]

/-- All a write can do to memory. -/
theorem State.storeWord_mem (s : State) (a v : Word) :
    (s.storeWord a v).mem = s.mem ∨ (s.storeWord a v).mem = s.mem.write a.toNat v := by
  rcases s.storeWord_cases a v with ⟨-, h⟩ | ⟨-, h⟩
  · exact .inr (h ▸ rfl)
  · exact .inl (h ▸ rfl)

/-! ## The handlers and the host -/

theorem exec_str (sr b : Reg) (off : BitVec 6) (s : State) :
    exec (.str sr b off) s = .next (s.storeWord (s.eaBaseOff b off) (s.reg sr)) := rfl

theorem exec_sti (sr : Reg) (off : BitVec 9) (s : State) :
    exec (.sti sr off) s = .next (s.loadThen (s.eaPcRel off) fun p => s.storeWord p (s.reg sr)) := rfl

/-- All a handler can do to memory: nothing, or the one write of STR or STI. -/
theorem exec_mem_cases {i : Instr} {s t : State} (h : exec i s = .next t) :
    t.mem = s.mem ∨
    (∃ (sr b : Reg) (off : BitVec 6), i = .str sr b off ∧
      t.mem = s.mem.write (s.eaBaseOff b off).toNat (s.reg sr)) ∨
    (∃ (sr : Reg) (off : BitVec 9), i = .sti sr off ∧
      t.mem = s.mem.write (s.mem.read (s.eaPcRel off).toNat).toNat (s.reg sr)) := by
  cases i
  case str sr b off =>
    obtain rfl := Host.Outcome.next.inj (exec_str sr b off s ▸ h)
    exact (s.storeWord_mem _ _).imp_right fun hw => .inl ⟨sr, b, off, rfl, hw⟩
  case sti sr off =>
    obtain rfl := Host.Outcome.next.inj (exec_sti sr off s ▸ h)
    rcases s.loadThen_cases (s.eaPcRel off) fun p => s.storeWord p (s.reg sr) with ⟨-, hl⟩ | ⟨-, hl⟩
    · rw [hl]
      exact (s.storeWord_mem _ _).imp_right fun hw => .inr ⟨sr, off, rfl, hw⟩
    · exact .inl (hl ▸ rfl)
  all_goals
    left
    obtain rfl := Host.Outcome.next.inj h
  case ld | ldr => exact State.loadThen_mem _ fun _ => rfl
  case ldi => exact State.loadThen_mem _ fun p => State.loadThen_mem p fun _ => rfl
  all_goals rfl

/-- A word that a handler changes is the one STR or STI addresses, and holds its register (20_memory.md R79). -/
theorem exec_changed_word {i : Instr} {s t : State} {a : Nat} (hm : s.mem.wf)
    (h : exec i s = .next t) (hne : t.mem.read a ≠ s.mem.read a) :
    (∃ (sr b : Reg) (off : BitVec 6), i = .str sr b off ∧ a = (s.eaBaseOff b off).toNat ∧
      t.mem.read a = s.reg sr) ∨
    (∃ (sr : Reg) (off : BitVec 9), i = .sti sr off ∧
      a = (s.mem.read (s.eaPcRel off).toNat).toNat ∧ t.mem.read a = s.reg sr) := by
  rcases exec_mem_cases h with hmem | ⟨sr, b, off, hi, hmem⟩ | ⟨sr, off, hi, hmem⟩ <;>
    rw [hmem] at hne ⊢
  · exact absurd rfl hne
  · exact .inl ⟨sr, b, off, hi, Memory.write_changes hm hne⟩
  · exact .inr ⟨sr, off, hi, Memory.write_changes hm hne⟩

/-- After a store to the word at `pc`, which a step is about to fetch, the step runs the word stored (20_memory.md R77). -/
theorem StoresWord.step_runs_stored {s t : State} {v : Word} (hst : StoresWord s t s.pc.toNat v)
    (hpc : s.pc.toNat < 50) :
    step t = exec (decode v) { t with ir := v, pc := t.pc + 1#16, fsm := .execute } := by
  obtain ⟨hread, -, hf, -, -, htpc, -⟩ := hst
  rw [← htpc] at hread hpc
  rw [step_of_fetch_lt hf hpc, State.fetched, hread]

/-- A `loadWord` at a negative address leaves the state as it was (60_exceptions.md R225). -/
theorem State.hostLoadWord_of_neg (s : State) {a : Int} (ha : a < 0) (w : Word) :
    (s.hostLoadWord a w).2 = s := by
  have hrange : ¬ (0 ≤ a ∧ a < Config.memSize) := fun h => absurd h.1 (Int.not_le.mpr ha)
  rw [State.hostLoadWord, if_neg hrange]
  split <;> rfl

/-- A word that a `loadWord` changes is the one at its address, in IDLE, and holds the word loaded. -/
theorem State.hostLoadWord_changed_word {s : State} {z : Int} {w : Word} {a : Nat} (hm : s.mem.wf)
    (hne : (s.hostLoadWord z w).2.mem.read a ≠ s.mem.read a) :
    s.fsm = .idle ∧ z = a ∧ (s.hostLoadWord z w).2.mem.read a = w := by
  rcases s.hostLoadWord_cases z w with ⟨hf, -, h⟩ | h
  · have hz : 0 ≤ z := by
      by_contra hneg
      exact hne (by rw [s.hostLoadWord_of_neg (Int.not_le.mp hneg)])
    rw [h] at hne ⊢
    obtain ⟨ha, hw⟩ := Memory.write_changes hm hne
    exact ⟨hf, by omega, hw⟩
  · exact absurd (by rw [h]) hne

end Sys2Proof.Machine
end

section
/-! The statements of 20_memory.md on addresses, the memory port, and who writes memory. -/

namespace Sys2Proof.Machine

/-- Settles O31: both adders are the one lemma on a signed sum, `pc` being small enough to be its own signed value. -/
theorem addressCalculatorIsExact : Obligations.AddressCalculatorIsExact := by
  refine ⟨fun s off _ hle => ?_, fun s b off => ?_, fun s p => ?_⟩
  · have hpc : s.pc.toInt = s.pc.toNat := BitVec.toInt_eq_toNat_of_lt (by omega)
    rw [← hpc]
    exact add_signExtend_exact (by decide) s.pc off
  · exact add_signExtend_exact (by decide) (s.reg b) off
  · exact ⟨s.memRead_isSome_iff p, s.memRead_of_lt p⟩

/-- Settles O38, by what each access does on either side of 50. -/
theorem memoryPort : Obligations.MemoryPort := by
  intro s a v k hm
  refine ⟨fun ha => ?_, fun ha => ?_⟩
  · refine ⟨s.memRead_of_lt a ha, s.loadThen_of_lt a k ha, s.mem.write a.toNat v,
      s.memWrite_of_lt a v ha, s.storeWord_of_lt a v ha, s.mem.write_wf hm _ ha v, ?_, fun b hb => ?_⟩
    · rw [s.mem.read_write hm, if_pos rfl]
    · rw [s.mem.read_write hm, if_neg hb]
  · rw [s.loadThen_of_ge a k ha, s.storeWord_of_ge a v ha]
    refine ⟨s.memRead_of_ge a ha, s.raiseAddressError_raises a _, s.memWrite_of_ge a v ha,
      s.raiseAddressError_raises a _, fun hf hpc => ?_⟩
    subst hpc
    exact ⟨_, step_of_fetch_ge hf ha, s.raiseAddressError_raises s.pc .fetch⟩

/-- Settles O39: both handlers end in a store to the word at `pc`, from which the next step runs. -/
theorem storeIsSeenByTheNextFetch : Obligations.StoreIsSeenByTheNextFetch := by
  intro s t hm hpc
  refine ⟨fun sr b off hea h => ?_, fun sr off hptr hea h => ?_⟩
  · rw [exec_str, hea] at h
    obtain rfl := Host.Outcome.next.inj h
    exact (s.storeWord_stores hm _ _ hpc).step_runs_stored hpc
  · rw [exec_sti, s.loadThen_of_lt _ _ hptr, hea] at h
    obtain rfl := Host.Outcome.next.inj h
    exact (s.storeWord_stores hm _ _ hpc).step_runs_stored hpc

/-- Settles O48: a changed word comes from a handler's write, also in a whole step, or from the host's. -/
theorem memoryWrittenOnlyByStores : Obligations.MemoryWrittenOnlyByStores := by
  refine ⟨fun i s t a => exec_changed_word, fun s t a hm hf h hne => ?_, fun s c a hm hne => ?_⟩
  · rcases Nat.lt_or_ge s.pc.toNat 50 with hpc | hpc
    · rw [step_of_fetch_lt hf hpc] at h
      exact exec_changed_word (s := s.fetched) hm h hne
    · rw [step_of_fetch_ge hf hpc] at h
      obtain rfl := Host.Outcome.next.inj h
      exact absurd rfl hne
  · cases c with
    | reset => exact .inl rfl
    | loadWord z w =>
      obtain ⟨hf, rfl, hw⟩ := State.hostLoadWord_changed_word hm hne
      exact .inr ⟨hf, w, rfl, hw⟩
    | execute =>
      rcases s.hostExecute_cases with ⟨-, h⟩ | h <;> exact absurd (by rw [State.hostCall, h]) hne

end Sys2Proof.Machine
end

section
/-! The layer of rules the statements of 30_encoding.md rest on: the relation between a word and the instruction it is laid out for, and that it is the graph of the decoder. -/

namespace Sys2Proof

/-! ## Formats -/

/-- `Layout w i`: the word `w` is laid out for the instruction `i`, field by field from bit 15 down, an ignored bit having any value (30_encoding.md R97 to R100).
One constructor per row of the opcode table; `layout_iff` ties it to the decoder. -/
inductive Layout : Word → Instr → Prop where
  | br (c : BitVec 3) (off : BitVec 9) : Layout (0b0000#4 ++ c ++ off) (.br c off)
  | addReg (d a : BitVec 3) (x : BitVec 2) (b : BitVec 3) :
      Layout (0b0001#4 ++ d ++ a ++ 0b0#1 ++ x ++ b) (.addReg (.ofBits d) (.ofBits a) (.ofBits b))
  | addImm (d a : BitVec 3) (imm : BitVec 5) :
      Layout (0b0001#4 ++ d ++ a ++ 0b1#1 ++ imm) (.addImm (.ofBits d) (.ofBits a) imm)
  | ld (d : BitVec 3) (off : BitVec 9) : Layout (0b0010#4 ++ d ++ off) (.ld (.ofBits d) off)
  | andReg (d a : BitVec 3) (x : BitVec 2) (b : BitVec 3) :
      Layout (0b0101#4 ++ d ++ a ++ 0b0#1 ++ x ++ b) (.andReg (.ofBits d) (.ofBits a) (.ofBits b))
  | andImm (d a : BitVec 3) (imm : BitVec 5) :
      Layout (0b0101#4 ++ d ++ a ++ 0b1#1 ++ imm) (.andImm (.ofBits d) (.ofBits a) imm)
  | ldr (d b : BitVec 3) (off : BitVec 6) :
      Layout (0b0110#4 ++ d ++ b ++ off) (.ldr (.ofBits d) (.ofBits b) off)
  | str (r b : BitVec 3) (off : BitVec 6) :
      Layout (0b0111#4 ++ r ++ b ++ off) (.str (.ofBits r) (.ofBits b) off)
  | not (d r : BitVec 3) (x : BitVec 6) :
      Layout (0b1001#4 ++ d ++ r ++ x) (.not (.ofBits d) (.ofBits r))
  | ldi (d : BitVec 3) (off : BitVec 9) : Layout (0b1010#4 ++ d ++ off) (.ldi (.ofBits d) off)
  | sti (r : BitVec 3) (off : BitVec 9) : Layout (0b1011#4 ++ r ++ off) (.sti (.ofBits r) off)
  | lea (d : BitVec 3) (off : BitVec 9) : Layout (0b1110#4 ++ d ++ off) (.lea (.ofBits d) off)
  | trapOut (x : BitVec 4) : Layout (0b1111#4 ++ x ++ 0x21#8) .trapOut
  | trapHalt (x : BitVec 4) : Layout (0b1111#4 ++ x ++ 0x25#8) .trapHalt
  | trapInvalid (x : BitVec 4) {v : BitVec 8} (hout : v ≠ 0x21#8) (hhalt : v ≠ 0x25#8) :
      Layout (0b1111#4 ++ x ++ v) (.trapInvalid v)
  | invalid3 (x : BitVec 12) : Layout (0b0011#4 ++ x) .invalid3
  | invalid4 (x : BitVec 12) : Layout (0b0100#4 ++ x) .invalid4
  | invalid8 (x : BitVec 12) : Layout (0b1000#4 ++ x) .invalid8
  | invalid12 (x : BitVec 12) : Layout (0b1100#4 ++ x) .invalid12
  | invalid13 (x : BitVec 12) : Layout (0b1101#4 ++ x) .invalid13

/-- A TRAP is decoded by its vector alone (30_encoding.md R100). -/
theorem decode_trap (x : BitVec 4) (v : BitVec 8) : decode (0b1111#4 ++ x ++ v) = decodeTrap v := by
  simp [decode]

/-- Below `n` there are `n - 2` numbers besides two given ones. -/
theorem length_range_filter_ne_ne {n a b : Nat} (ha : a < n) (hb : b < n) (hab : a ≠ b) :
    ((List.range n).filter fun k => k ≠ a ∧ k ≠ b).length = n - 2 := by
  have herase : ((List.range n).filter fun k => k ≠ a ∧ k ≠ b) = ((List.range n).erase b).erase a := by
    rw [(List.nodup_range.erase b).erase_eq_filter, List.nodup_range.erase_eq_filter, List.filter_filter]
    exact List.filter_congr fun k _ => by simp [bne, beq_eq_decide]
  have ha' : a ∈ (List.range n).erase b := (List.mem_erase_of_ne hab).mpr (List.mem_range.mpr ha)
  rw [herase, List.length_erase_of_mem ha', List.length_erase_of_mem (List.mem_range.mpr hb),
    List.length_range, Nat.sub_sub]

/-- The decoder reads a word back as the instruction it is laid out for. -/
theorem Layout.decode_eq {w : Word} {i : Instr} (h : Layout w i) : decode w = i := by
  cases h with
  | br | ld | ldi | sti | lea => simp [decode]
  | ldr | str | not => simp [decode]
  | addReg | addImm | andReg | andImm => simp [decode]
  | trapOut x | trapHalt x => exact decode_trap x _
  | trapInvalid x hout hhalt => rw [decode_trap, decodeTrap, if_neg hout, if_neg hhalt]
  | invalid3 | invalid4 | invalid8 | invalid12 | invalid13 => simp [decode]

/-! ## Every word is in a format -/

/-- A run of bits of a word is its upper bits followed by its lower ones. -/
theorem Word.split (w : Word) (k m n : Nat) :
    w.extractLsb' k (m + n) = w.extractLsb' (k + n) m ++ w.extractLsb' k n :=
  (BitVec.extractLsb'_append_extractLsb'_eq_extractLsb' rfl).symm

/-- The opcode, `ir[15:12]` (30_encoding.md R91). -/
def Word.opcode (w : Word) : BitVec 4 := w.extractLsb' 12 4

/-- A word as an opcode and twelve bits. -/
theorem Word.eq_opcode (w : Word) : w = w.opcode ++ w.extractLsb' 0 12 :=
  (extract_all w).symm.trans (w.split 0 4 12)

/-- A word as an opcode, a register field and PCoffset9. -/
theorem Word.eq_pcRelative (w : Word) : w = w.opcode ++ Word.f11_9 w ++ Word.pcOffset9 w :=
  (extract_all w).symm.trans ((w.split 0 7 9).trans (congrArg (· ++ _) (w.split 9 4 3)))

/-- A word as an opcode, two register fields and six bits. -/
theorem Word.eq_baseOffset (w : Word) :
    w = w.opcode ++ Word.f11_9 w ++ Word.f8_6 w ++ Word.offset6 w :=
  (extract_all w).symm.trans ((w.split 0 10 6).trans (congrArg (· ++ _)
    ((w.split 6 7 3).trans (congrArg (· ++ _) (w.split 9 4 3)))))

/-- A word as an opcode, two register fields, the mode bit and imm5. -/
theorem Word.eq_immediate (w : Word) :
    w = w.opcode ++ Word.f11_9 w ++ Word.f8_6 w ++ w.extractLsb' 5 1 ++ Word.imm5 w :=
  (extract_all w).symm.trans ((w.split 0 11 5).trans (congrArg (· ++ _)
    ((w.split 5 10 1).trans (congrArg (· ++ _)
      ((w.split 6 7 3).trans (congrArg (· ++ _) (w.split 9 4 3)))))))

/-- A word as an opcode, two register fields, the mode bit, `ir[4:3]` and SR2. -/
theorem Word.eq_register (w : Word) :
    w = w.opcode ++ Word.f11_9 w ++ Word.f8_6 w ++ w.extractLsb' 5 1 ++ w.extractLsb' 3 2 ++ Word.f2_0 w :=
  (extract_all w).symm.trans ((w.split 0 13 3).trans (congrArg (· ++ _)
    ((w.split 3 11 2).trans (congrArg (· ++ _) ((w.split 5 10 1).trans (congrArg (· ++ _)
      ((w.split 6 7 3).trans (congrArg (· ++ _) (w.split 9 4 3)))))))))

/-- A word as an opcode, four bits and trapvect8. -/
theorem Word.eq_trap (w : Word) : w = w.opcode ++ w.extractLsb' 8 4 ++ Word.trapvect8 w :=
  (extract_all w).symm.trans ((w.split 0 8 8).trans (congrArg (· ++ _) (w.split 8 4 4)))

/-- The opcode map has a row for each of the sixteen opcodes (30_encoding.md R99). -/
theorem opcode_cases (o : BitVec 4) :
    (o = 0b0000#4 ∨ o = 0b0001#4 ∨ o = 0b0010#4 ∨ o = 0b0011#4) ∨
    (o = 0b0100#4 ∨ o = 0b0101#4 ∨ o = 0b0110#4 ∨ o = 0b0111#4) ∨
    (o = 0b1000#4 ∨ o = 0b1001#4 ∨ o = 0b1010#4 ∨ o = 0b1011#4) ∨
    (o = 0b1100#4 ∨ o = 0b1101#4 ∨ o = 0b1110#4 ∨ o = 0b1111#4) := by
  revert o; decide

theorem Layout.exists_of_eq {v w : Word} {i : Instr} (h : Layout v i) (hw : w = v) :
    ∃ i, Layout w i := ⟨i, hw ▸ h⟩

/-- Every word is laid out for some instruction: no word is undefined (30_encoding.md R102). -/
theorem exists_layout (w : Word) : ∃ i, Layout w i := by
  have hinv := w.eq_opcode
  have hpcr := w.eq_pcRelative
  have hbof := w.eq_baseOffset
  have himm := w.eq_immediate
  have hreg := w.eq_register
  have htrap := w.eq_trap
  have hmode := BitVec.eq_zero_or_eq_one (w.extractLsb' 5 1)
  rcases opcode_cases w.opcode with (ho | ho | ho | ho) | (ho | ho | ho | ho) |
    (ho | ho | ho | ho) | (ho | ho | ho | ho) <;> rw [ho] at hinv hpcr hbof himm hreg htrap
  · exact (Layout.br _ _).exists_of_eq hpcr
  · rcases hmode with hm | hm <;> rw [hm] at himm hreg
    · exact (Layout.addReg _ _ _ _).exists_of_eq hreg
    · exact (Layout.addImm _ _ _).exists_of_eq himm
  · exact (Layout.ld _ _).exists_of_eq hpcr
  · exact (Layout.invalid3 _).exists_of_eq hinv
  · exact (Layout.invalid4 _).exists_of_eq hinv
  · rcases hmode with hm | hm <;> rw [hm] at himm hreg
    · exact (Layout.andReg _ _ _ _).exists_of_eq hreg
    · exact (Layout.andImm _ _ _).exists_of_eq himm
  · exact (Layout.ldr _ _ _).exists_of_eq hbof
  · exact (Layout.str _ _ _).exists_of_eq hbof
  · exact (Layout.invalid8 _).exists_of_eq hinv
  · exact (Layout.not _ _ _).exists_of_eq hbof
  · exact (Layout.ldi _ _).exists_of_eq hpcr
  · exact (Layout.sti _ _).exists_of_eq hpcr
  · exact (Layout.invalid12 _).exists_of_eq hinv
  · exact (Layout.invalid13 _).exists_of_eq hinv
  · exact (Layout.lea _ _).exists_of_eq hpcr
  · by_cases hout : Word.trapvect8 w = 0x21#8
    · exact (Layout.trapOut _).exists_of_eq (hout ▸ htrap)
    · by_cases hhalt : Word.trapvect8 w = 0x25#8
      · exact (Layout.trapHalt _).exists_of_eq (hhalt ▸ htrap)
      · exact (Layout.trapInvalid _ hout hhalt).exists_of_eq htrap

/-- The formats are the decoder: a word is laid out for the one instruction it decodes to. -/
theorem layout_iff {w : Word} {i : Instr} : Layout w i ↔ decode w = i := by
  refine ⟨Layout.decode_eq, fun h => ?_⟩
  obtain ⟨j, hj⟩ := exists_layout w
  exact (hj.decode_eq.symm.trans h) ▸ hj

theorem layout_decode (w : Word) : Layout w (decode w) := layout_iff.mpr rfl

/-! ## The encoder -/

/-- The encoder's word is laid out for its instruction, if that is well formed. -/
theorem layout_encode {i : Instr} (hi : i.wf = true) : Layout (encode i) i := by
  cases i with
  | br c off => exact .br c off
  | addReg d a b => simpa [encode] using Layout.addReg d.toBits a.toBits 0b00#2 b.toBits
  | addImm d a imm => simpa [encode] using Layout.addImm d.toBits a.toBits imm
  | ld d off => simpa [encode] using Layout.ld d.toBits off
  | andReg d a b => simpa [encode] using Layout.andReg d.toBits a.toBits 0b00#2 b.toBits
  | andImm d a imm => simpa [encode] using Layout.andImm d.toBits a.toBits imm
  | ldr d b off => simpa [encode] using Layout.ldr d.toBits b.toBits off
  | str r b off => simpa [encode] using Layout.str r.toBits b.toBits off
  | not d r => simpa [encode] using Layout.not d.toBits r.toBits 0b111111#6
  | ldi d off => simpa [encode] using Layout.ldi d.toBits off
  | sti r off => simpa [encode] using Layout.sti r.toBits off
  | lea d off => simpa [encode] using Layout.lea d.toBits off
  | trapOut => exact .trapOut 0b0000#4
  | trapHalt => exact .trapHalt 0b0000#4
  | trapInvalid v =>
    obtain ⟨hout, hhalt⟩ : v ≠ 0x21#8 ∧ v ≠ 0x25#8 := by simpa [Instr.wf] using hi
    exact .trapInvalid 0b0000#4 hout hhalt
  | invalid3 => exact .invalid3 0#12
  | invalid4 => exact .invalid4 0#12
  | invalid8 => exact .invalid8 0#12
  | invalid12 => exact .invalid12 0#12
  | invalid13 => exact .invalid13 0#12

theorem Layout.wf {w : Word} {i : Instr} (h : Layout w i) : i.wf = true := by
  cases h with
  | trapInvalid x hout hhalt => simp [Instr.wf, hout, hhalt]
  | br | addReg | addImm | ld | andReg | andImm | ldr | str | not | ldi | sti | lea => rfl
  | trapOut | trapHalt | invalid3 | invalid4 | invalid8 | invalid12 | invalid13 => rfl

/-- Two words that differ in their low bits only agree outside those. -/
theorem append_agree_outside_low {m n : Nat} (p : BitVec m) (x y : BitVec n) :
    (p ++ x) &&& ~~~(0#m ++ BitVec.allOnes n) = (p ++ y) &&& ~~~(0#m ++ BitVec.allOnes n) := by
  simp [BitVec.not_append, BitVec.and_append]

/-- Two words that differ in a middle field only agree outside that. -/
theorem append_agree_outside_middle {l m n : Nat} (p : BitVec l) (x y : BitVec m) (q : BitVec n) :
    (p ++ x ++ q) &&& ~~~(0#l ++ BitVec.allOnes m ++ 0#n) =
      (p ++ y ++ q) &&& ~~~(0#l ++ BitVec.allOnes m ++ 0#n) := by
  simp [BitVec.not_append, BitVec.and_append]

/-- A word and the encoder's word of the instruction it is laid out for agree outside the ignored bits (30_encoding.md R98). -/
theorem Layout.encode_agrees {w : Word} {i : Instr} (h : Layout w i) :
    encode i &&& ~~~i.ignoredMask = w &&& ~~~i.ignoredMask := by
  cases h with
  | br | addImm | ld | andImm | ldr | str | ldi | sti | lea => simp only [encode, Reg.toBits_ofBits]
  | addReg | andReg =>
    simp only [encode, Reg.toBits_ofBits]
    exact append_agree_outside_middle _ _ _ _
  | trapOut | trapHalt | trapInvalid => exact append_agree_outside_middle _ _ _ _
  | not =>
    simp only [encode, Reg.toBits_ofBits]
    exact append_agree_outside_low _ _ _
  | invalid3 | invalid4 | invalid8 | invalid12 | invalid13 => exact append_agree_outside_low _ _ _

/-- The encoder's word has the fixed bits of its row of the opcode table. -/
theorem encode_fitsTable (i : Instr) : encode i &&& i.tableMask = i.tableMatch := by
  cases i with
  | br => exact Laws.FitsTable.br ..
  | addReg => exact Laws.FitsTable.addReg ..
  | addImm => exact Laws.FitsTable.addImm ..
  | ld => exact Laws.FitsTable.ld ..
  | andReg => exact Laws.FitsTable.andReg ..
  | andImm => exact Laws.FitsTable.andImm ..
  | ldr => exact Laws.FitsTable.ldr ..
  | str => exact Laws.FitsTable.str ..
  | not => exact Laws.FitsTable.not ..
  | ldi => exact Laws.FitsTable.ldi ..
  | sti => exact Laws.FitsTable.sti ..
  | lea => exact Laws.FitsTable.lea ..
  | trapOut => exact Laws.FitsTable.trapOut
  | trapHalt => exact Laws.FitsTable.trapHalt
  | trapInvalid => exact Laws.FitsTable.trapInvalid ..
  | invalid3 => exact Laws.FitsTable.invalid3
  | invalid4 => exact Laws.FitsTable.invalid4
  | invalid8 => exact Laws.FitsTable.invalid8
  | invalid12 => exact Laws.FitsTable.invalid12
  | invalid13 => exact Laws.FitsTable.invalid13

/-- No fixed bit of a row is an ignored one. -/
theorem tableMask_reads (i : Instr) : ~~~i.ignoredMask &&& i.tableMask = i.tableMask := by
  cases i <;> simp only [Instr.ignoredMask, Instr.tableMask] <;> decide

/-- A word has the fixed bits of the row of the instruction it is laid out for: the fixed bits are read, and in those it agrees with the encoder's word. -/
theorem Layout.fitsTable {w : Word} {i : Instr} (h : Layout w i) : w &&& i.tableMask = i.tableMatch :=
  calc w &&& i.tableMask
    _ = w &&& ~~~i.ignoredMask &&& i.tableMask := by rw [BitVec.and_assoc, tableMask_reads]
    _ = encode i &&& ~~~i.ignoredMask &&& i.tableMask := by rw [h.encode_agrees]
    _ = encode i &&& i.tableMask := by rw [BitVec.and_assoc, tableMask_reads]
    _ = i.tableMatch := encode_fitsTable i

end Sys2Proof
end

section
/-! The sign extenders, and the handlers that no ignored bit reaches. -/

namespace Sys2Proof.Machine

/-! ## Sign extension -/

/-- A sign extension to 16 bits has the field's signed value, modulo 2^16 (30_encoding.md R96). -/
theorem toNat_signExtend_eq_mod {n : Nat} (f : BitVec n) :
    ((f.signExtend 16).toNat : Int) = f.toInt % 65536 := by
  rw [BitVec.signExtend, BitVec.toNat_ofInt]
  exact Int.toNat_of_nonneg (Int.emod_nonneg _ (by decide))

/-! ## The word in `ir` -/

/-- The handler of `i` does the same whatever word is in `ir`, and leaves it there. -/
def IgnoresIr (i : Instr) : Prop :=
  ∀ s : State, ∃ t : State, ∀ w : Word, exec i { s with ir := w } = .next { t with ir := w }

theorem ignoresIr_addReg (d a b : Reg) : IgnoresIr (.addReg d a b) :=
  fun s => ⟨s.writeResult d (aluAdd (s.reg a) (s.reg b)), fun _ => rfl⟩

theorem ignoresIr_andReg (d a b : Reg) : IgnoresIr (.andReg d a b) :=
  fun s => ⟨s.writeResult d (aluAnd (s.reg a) (s.reg b)), fun _ => rfl⟩

theorem ignoresIr_not (d r : Reg) : IgnoresIr (.not d r) :=
  fun s => ⟨s.writeResult d (aluNot (s.reg r)), fun _ => rfl⟩

theorem ignoresIr_trapOut : IgnoresIr .trapOut :=
  fun s => ⟨(s.emitOut (s.reg 0)).complete, fun _ => rfl⟩

theorem ignoresIr_trapHalt : IgnoresIr .trapHalt := fun s => ⟨s.stopHalted, fun _ => rfl⟩

/-- Two words of one instruction whose handler ignores `ir` execute alike. -/
theorem IgnoresIr.executesAlike {i : Instr} (hi : IgnoresIr i) {w w₀ : Word} (hw : Layout w i)
    (hw₀ : Layout w₀ i) (s : State) : decode w = decode w₀ ∧ ExecutesAlike w w₀ s := by
  obtain ⟨t, ht⟩ := hi s
  rw [ExecutesAlike, hw.decode_eq, hw₀.decode_eq]
  exact ⟨rfl, _, ht w, rfl, ht w₀⟩

/-- Two words of one invalid TRAP execute alike but for the word in the event each logs (44_trap.md R203). -/
theorem logsAlike_trapInvalid {w w₀ : Word} {v : BitVec 8} (hw : Layout w (.trapInvalid v))
    (hw₀ : Layout w₀ (.trapInvalid v)) (s : State) : LogsAlike w w₀ s .invalidTrap := by
  rw [LogsAlike, hw.decode_eq, hw₀.decode_eq]
  exact ⟨_, rfl, rfl, rfl, rfl⟩

/-! ## The answers -/

/-- No arm of `exec` faults or refuses. -/
theorem exec_answers (i : Instr) (s : State) : ∃ t, exec i s = .next t := by
  cases i <;> exact ⟨_, rfl⟩

theorem step_answers (s : State) : ∃ t, step s = .next t := by
  cases hf : s.fsm
  case fetch =>
    rcases Nat.lt_or_ge s.pc.toNat 50 with hpc | hpc
    · exact step_of_fetch_lt hf hpc ▸ exec_answers ..
    · exact ⟨_, step_of_fetch_ge hf hpc⟩
  all_goals simp only [step, hf]
  case idle | halted | faulted => exact ⟨s, rfl⟩
  case decode | execute => exact exec_answers ..

end Sys2Proof.Machine
end

section
/-! The statements of 30_encoding.md. -/

namespace Sys2Proof.Machine

/-- Settles O1: the encoder's word is laid out for its instruction, which is what the decoder reads back. -/
theorem decodeEncodeRoundTrip : Obligations.DecodeEncodeRoundTrip :=
  fun _ hi => (layout_encode hi).decode_eq

/-- Settles O2: the word is laid out for what it decodes to. -/
theorem encodeDecodeKeepsReadBits : Obligations.EncodeDecodeKeepsReadBits :=
  fun w => (layout_decode w).encode_agrees

/-- Settles O3, by the encoder's word, which has the fixed bits. -/
theorem decodedWordFitsTableRow : Obligations.DecodedWordFitsTableRow :=
  fun w => (layout_decode w).fitsTable

/-- Settles O4: a word is laid out only for a well-formed instruction. -/
theorem everyWordDecodesWellFormed : Obligations.EveryWordDecodesWellFormed :=
  fun w => (layout_decode w).wf

/-- Settles O5: each format is a layout, but for TRAP's, which is decoded by its vector. -/
theorem formatsDecode : Obligations.FormatsDecode :=
  ⟨fun c off => (Layout.br c off).decode_eq, fun d a x b => (Layout.addReg d a x b).decode_eq,
    fun d a imm => (Layout.addImm d a imm).decode_eq, fun d off => (Layout.ld d off).decode_eq,
    fun x => (Layout.invalid3 x).decode_eq, fun x => (Layout.invalid4 x).decode_eq,
    fun d a x b => (Layout.andReg d a x b).decode_eq, fun d a imm => (Layout.andImm d a imm).decode_eq,
    fun d b off => (Layout.ldr d b off).decode_eq, fun r b off => (Layout.str r b off).decode_eq,
    fun x => (Layout.invalid8 x).decode_eq, fun d r x => (Layout.not d r x).decode_eq,
    fun d off => (Layout.ldi d off).decode_eq, fun r off => (Layout.sti r off).decode_eq,
    fun x => (Layout.invalid12 x).decode_eq, fun x => (Layout.invalid13 x).decode_eq,
    fun d off => (Layout.lea d off).decode_eq, decode_trap, fun _ => rfl⟩

/-- Settles O6: both words are laid out for one instruction, whose handler does not see which of them is in `ir`, or logs it. -/
theorem ignoredBitsHaveNoEffect : Obligations.IgnoredBitsHaveNoEffect := by
  refine ⟨?_, ?_, ?_, ?_⟩
  · rintro d a b x _ _ s rfl rfl
    exact (ignoresIr_addReg _ _ _).executesAlike (.addReg d a x b) (.addReg d a 0b00#2 b) s
  · rintro d a b x _ _ s rfl rfl
    exact (ignoresIr_andReg _ _ _).executesAlike (.andReg d a x b) (.andReg d a 0b00#2 b) s
  · rintro d r x _ _ s rfl rfl
    exact (ignoresIr_not _ _).executesAlike (.not d r x) (.not d r 0b000000#6) s
  · rintro x v _ _ s rfl rfl
    refine ⟨(decode_trap x v).trans (decode_trap 0b0000#4 v).symm, ?_, fun hout hhalt =>
      logsAlike_trapInvalid (.trapInvalid x hout hhalt) (.trapInvalid 0b0000#4 hout hhalt) s⟩
    rintro (rfl | rfl)
    · exact (ignoresIr_trapOut.executesAlike (.trapOut x) (.trapOut 0b0000#4) s).2
    · exact (ignoresIr_trapHalt.executesAlike (.trapHalt x) (.trapHalt 0b0000#4) s).2

/-- Settles O7: TRAP's three layouts, and the count of the vectors but for two. -/
theorem trapIsDecodedOnItsVector : Obligations.TrapIsDecodedOnItsVector :=
  ⟨fun x => (Layout.trapOut x).decode_eq, fun x => (Layout.trapHalt x).decode_eq,
    fun x _ hout hhalt => (Layout.trapInvalid x hout hhalt).decode_eq,
    length_range_filter_ne_ne (by decide) (by decide) (by decide)⟩

/-- Settles O8: a sign extension is the top bit's fill above the field, and has the field's signed value. -/
theorem signExtenders : Obligations.SignExtenders :=
  ⟨fun f => ⟨BitVec.signExtend_eq_append_of_le (by decide), toNat_signExtend_eq_mod f⟩,
    fun f => ⟨BitVec.signExtend_eq_append_of_le (by decide), toNat_signExtend_eq_mod f⟩,
    fun f => ⟨BitVec.signExtend_eq_append_of_le (by decide), toNat_signExtend_eq_mod f⟩, by decide⟩

/-- Settles O9: each word is laid out for its instruction. -/
theorem specWordsDecode : Obligations.SpecWordsDecode :=
  ⟨(Layout.br 0b111#3 5#9).decode_eq, (Layout.addReg 3#3 1#3 0#2 2#3).decode_eq,
    (Layout.addImm 1#3 3#3 0b10000#5).decode_eq, (Layout.andImm 0#3 1#3 0b10000#5).decode_eq,
    (Layout.not 5#3 0#3 0b111111#6).decode_eq, (Layout.ld 4#3 3#9).decode_eq,
    (Layout.ldr 6#3 5#3 5#6).decode_eq, (Layout.str 2#3 1#3 2#6).decode_eq,
    (Layout.ldi 4#3 8#9).decode_eq, (Layout.sti 4#3 7#9).decode_eq,
    (Layout.lea 1#3 0b111111110#9).decode_eq, (Layout.trapOut 0#4).decode_eq,
    (Layout.trapHalt 0#4).decode_eq, (Layout.trapInvalid 0#4 (v := 0x20#8) (by decide) (by decide)).decode_eq,
    (Layout.invalid3 0#12).decode_eq⟩

/-- Settles O14: no handler and no fetch ends in anything but a next state. -/
theorem everyStepAnswersANextState : Obligations.EveryStepAnswersANextState :=
  ⟨exec_answers, step_answers⟩

end Sys2Proof.Machine
end

section
/-! The layer of rules the statements of 40_cycle.md rest on: how a handler ends a pass, and that no handler reads the history of the run. -/

namespace Sys2Proof.Machine

/-! ## The states a pass does not start from -/

theorem step_of_stopped {s : State} (h : s.fsm = .idle ∨ s.fsm = .halted ∨ s.fsm = .faulted) :
    step s = .next s := by
  rcases h with h | h | h <;> simp only [step, h]

theorem step_of_decode {s : State} (h : s.fsm = .decode) :
    step s = exec (decode s.ir) { s with fsm := .execute } := by
  simp only [step, h, State.decodePhase, State.executePhase]

theorem step_of_execute {s : State} (h : s.fsm = .execute) : step s = exec (decode s.ir) s := by
  simp only [step, h, State.executePhase]

/-! ## How a handler ends a pass -/

theorem State.executeReturn_of_fetch {s : State} (h : s.fsm = .fetch) : s.executeReturn = none := by
  simp only [State.executeReturn, h]

/-- A handler goes on to FETCH with `stop_cause` as it was, or is TRAP HALT's and stops, or takes an `AddressError` (40_cycle.md R120, R124). -/
theorem HandlerEffect.end_cases {i : Instr} {s t : State} (he : HandlerEffect s i t) :
    (t.fsm = .fetch ∧ t.stopCause = s.stopCause) ∨ (i = .trapHalt ∧ t = s.stopHalted) ∨
    ∃ (a : Word) (k : Access), 50 ≤ a.toNat ∧ t = s.raiseAddressError a k := by
  cases he with
  | result | store | taken | notTaken | softError | out => exact .inl ⟨rfl, rfl⟩
  | halt => exact .inr (.inl ⟨rfl, rfl⟩)
  | fault ha k => exact .inr (.inr ⟨_, k, ha, rfl⟩)

/-- Each of the five invalid opcodes logs INVALID_INSTRUCTION and completes (40_cycle.md R126). -/
theorem exec_of_invalidOpcode {i : Instr} (s : State)
    (hi : i = .invalid3 ∨ i = .invalid4 ∨ i = .invalid8 ∨ i = .invalid12 ∨ i = .invalid13) :
    exec i s = .next (s.logSoftError .invalidInstruction).complete := by
  rcases hi with rfl | rfl | rfl | rfl | rfl <;> rfl

/-! ## No handler reads the history of the run -/

/-- `s` with the history of `h`: the stop record and the port traces, which hold what the run has done so far and which no handler reads. -/
def State.withHistory (s h : State) : State :=
  { s with
    stopCause := h.stopCause, faultAddr := h.faultAddr, faultAccess := h.faultAccess
    console := h.console, diag := h.diag }

/-- Two states with the same registers, `pc`, `cc` and memory differ in nothing but the history once each has fetched. -/
theorem State.fetched_eq_withHistory {s₁ s₂ : State} (hregs : SameRegs s₁ s₂) (hpc : s₂.pc = s₁.pc)
    (hcc : s₂.cc = s₁.cc) (hmem : SameMem s₁ s₂) (hm₁ : s₁.mem.wf) (hm₂ : s₂.mem.wf) :
    s₂.fetched = s₁.fetched.withHistory s₂ := by
  have hr : s₂.regs = s₁.regs := Vector.ext fun r hr => hregs ⟨r, hr⟩
  have hm : s₂.mem = s₁.mem := Memory.ext_of_wf _ _ hm₂ hm₁ hmem
  simp only [State.fetched, State.withHistory, hr, hpc, hcc, hm]

/-- `SameEnding s h t u`: a handler leaves `s` in `t` and `s` with the history of `h` in `u`, ending both times in the same way with the same values.
One constructor per way a handler ends; `exec_sameEnding` ties it to `exec`. -/
inductive SameEnding (s h : State) : State → State → Prop where
  | result (d : Reg) (v : Word) :
      SameEnding s h (s.writeResult d v) ((s.withHistory h).writeResult d v)
  | store (m : Memory) :
      SameEnding s h (State.complete { s with mem := m }) (State.complete { s.withHistory h with mem := m })
  | fault (a : Word) (k : Access) :
      SameEnding s h (s.raiseAddressError a k) ((s.withHistory h).raiseAddressError a k)
  | branch (p : Word) :
      SameEnding s h (State.complete { s with pc := p }) (State.complete { s.withHistory h with pc := p })
  | softError (k : SoftErrorKind) :
      SameEnding s h (s.logSoftError k).complete ((s.withHistory h).logSoftError k).complete
  | out (v : Word) : SameEnding s h (s.emitOut v).complete ((s.withHistory h).emitOut v).complete
  | halt : SameEnding s h s.stopHalted (s.withHistory h).stopHalted

namespace SameEnding

variable {s h t u : State}

/-- A read gives the same word, or faults at the same address, so what follows it decides. -/
theorem loadThen (a : Word) {k k' : Word → State} (hk : ∀ v, SameEnding s h (k v) (k' v)) :
    SameEnding s h (s.loadThen a k) ((s.withHistory h).loadThen a k') := by
  rcases Nat.lt_or_ge a.toNat 50 with ha | ha
  · rw [s.loadThen_of_lt a k ha, State.loadThen_of_lt _ a k' ha]
    exact hk _
  · rw [s.loadThen_of_ge a k ha, State.loadThen_of_ge _ a k' ha]
    exact .fault a .load

theorem storeWord (a v : Word) : SameEnding s h (s.storeWord a v) ((s.withHistory h).storeWord a v) := by
  rcases Nat.lt_or_ge a.toNat 50 with ha | ha
  · rw [s.storeWord_of_lt a v ha, State.storeWord_of_lt _ a v ha]
    exact .store (s.mem.write a.toNat v)
  · rw [s.storeWord_of_ge a v ha, State.storeWord_of_ge _ a v ha]
    exact .fault a .store

/-- After the handler too, the two states differ in nothing but the history. -/
theorem exists_eq_withHistory (he : SameEnding s h t u) : ∃ h', u = t.withHistory h' :=
  ⟨u, by cases he <;> rfl⟩

/-- A handler that stops the run records the same cause. -/
theorem stopCause_eq (he : SameEnding s h t u) (ht : t.fsm ≠ .fetch) : u.stopCause = t.stopCause := by
  cases he with
  | fault | halt => rfl
  | result | store | branch | softError | out => exact absurd rfl ht

/-- A handler that faults records the same address and access. -/
theorem faultRecord_eq (he : SameEnding s h t u) (ht : t.fsm = .faulted) :
    u.faultAddr = t.faultAddr ∧ u.faultAccess = t.faultAccess := by
  cases he with
  | fault => exact ⟨rfl, rfl⟩
  | result | store | branch | softError | out | halt => cases ht

/-- A handler issues the same events on both ports. -/
theorem events_eq (he : SameEnding s h t u) : ∃ (outs : List Word) (errs : List SoftError),
    t.console = s.console ++ outs ∧ u.console = h.console ++ outs ∧
    t.diag = s.diag ++ errs ∧ u.diag = h.diag ++ errs := by
  have hnil {α : Type} (l : List α) : l = l ++ [] := (List.append_nil l).symm
  cases he with
  | softError k => exact ⟨[], [⟨k, s.pc - 1#16, s.ir⟩], hnil _, hnil _, rfl, rfl⟩
  | out v => exact ⟨[v], [], rfl, rfl, hnil _, hnil _⟩
  | result | store | fault | branch | halt => exact ⟨[], [], hnil _, hnil _, hnil _, hnil _⟩

end SameEnding

/-- No handler reads the history, so with another one it ends in the same way. -/
theorem exec_sameEnding {i : Instr} {s h t u : State} (ht : exec i s = .next t)
    (hu : exec i (s.withHistory h) = .next u) : SameEnding s h t u := by
  cases i <;> obtain rfl := Host.Outcome.next.inj ht <;> obtain rfl := Host.Outcome.next.inj hu
  case br => exact .branch _
  case addReg | addImm | andReg | andImm | not | lea => exact .result _ _
  case ld | ldr => exact .loadThen _ fun v => .result _ v
  case ldi => exact .loadThen _ fun p => .loadThen p fun v => .result _ v
  case str => exact .storeWord _ _
  case sti => exact .loadThen _ fun p => .storeWord p _
  case trapOut => exact .out _
  case trapHalt => exact .halt
  case trapInvalid => exact .softError .invalidTrap
  case invalid3 | invalid4 | invalid8 | invalid12 | invalid13 => exact .softError .invalidInstruction

end Sys2Proof.Machine
end

section
/-! The statements of 40_cycle.md. -/

namespace Sys2Proof.Machine

/-- Settles O15: after the fetch the two states differ in their history only, which no handler reads; a FETCH fault is the same at the same `pc`. -/
theorem stepDependsOnlyOnProgramState : Obligations.StepDependsOnlyOnProgramState := by
  intro s₁ s₂ t₁ t₂ hf₁ hf₂ hregs hpc hcc hmem hm₁ hm₂ h₁ h₂
  rcases Nat.lt_or_ge s₁.pc.toNat 50 with hlt | hge
  · rw [step_of_fetch_lt hf₁ hlt] at h₁
    rw [step_of_fetch_lt hf₂ (hpc ▸ hlt), State.fetched_eq_withHistory hregs hpc hcc hmem hm₁ hm₂,
      hpc, hmem] at h₂
    have he := exec_sameEnding h₁ h₂
    obtain ⟨h, rfl⟩ := he.exists_eq_withHistory
    exact ⟨fun _ => rfl, rfl, rfl, fun _ => rfl, rfl, fun _ => rfl, he.stopCause_eq, he.faultRecord_eq,
      he.events_eq⟩
  · rw [step_of_fetch_ge hf₁ hge] at h₁
    rw [step_of_fetch_ge hf₂ (hpc ▸ hge)] at h₂
    obtain rfl := Host.Outcome.next.inj h₁
    obtain rfl := Host.Outcome.next.inj h₂
    exact ⟨hregs, hpc, hcc, hmem, rfl, fun hlt => absurd hlt (Nat.not_lt.mpr hge), fun _ => rfl,
      fun _ => ⟨hpc, rfl⟩, [], [], by simp⟩

/-- Settles O43: the words are laid out for the five instructions, whose handlers log the one error. -/
theorem invalidOpcodeIsLogged : Obligations.InvalidOpcodeIsLogged :=
  ⟨fun x => ⟨(Layout.invalid3 x).decode_eq, (Layout.invalid4 x).decode_eq, (Layout.invalid8 x).decode_eq,
      (Layout.invalid12 x).decode_eq, (Layout.invalid13 x).decode_eq⟩,
    fun _ s hi => ⟨_, exec_of_invalidOpcode s hi, s.logSoftError_logs _⟩, rfl⟩

/-- Settles O46, by the three ways a handler ends; a FETCH fault ends in the third. -/
theorem passEndsInFetchHaltedOrFaulted : Obligations.PassEndsInFetchHaltedOrFaulted := by
  intro s t hf h
  rcases Nat.lt_or_ge s.pc.toNat 50 with hpc | hpc
  · rw [step_of_fetch_lt hf hpc] at h
    rcases (exec_effect h).end_cases with ⟨hfetch, hcause⟩ | ⟨hi, rfl⟩ | ⟨a, k, ha, rfl⟩
    · exact .inl ⟨hfetch, hcause, State.executeReturn_of_fetch hfetch⟩
    · exact .inr (.inl ⟨rfl, rfl, rfl, hpc, hi, rfl⟩)
    · exact .inr (.inr ⟨rfl, rfl, rfl, ha⟩)
  · rw [step_of_fetch_ge hf hpc] at h
    obtain rfl := Host.Outcome.next.inj h
    exact .inr (.inr ⟨rfl, rfl, rfl, hpc⟩)

/-- Settles O10, by the fetch on either side of 50; below it the increment is too small to wrap. -/
theorem stepFetchesDecodesExecutes : Obligations.StepFetchesDecodesExecutes := fun s hf =>
  ⟨fun hpc => ⟨step_of_fetch_lt hf hpc, by bv_omega⟩,
    fun hpc => ⟨_, step_of_fetch_ge hf hpc, s.raiseAddressError_raises s.pc .fetch⟩⟩

/-- Settles O11: in these states `step` has no phase to run. -/
theorem stoppedStatesStay : Obligations.StoppedStatesStay := fun _ => step_of_stopped

/-- Settles O12, by the two phases after FETCH. -/
theorem unfinishedPassFinishes : Obligations.UnfinishedPassFinishes := fun _ =>
  ⟨step_of_decode, step_of_execute⟩

end Sys2Proof.Machine
end

section
/-! The layer of rules the statements of 41_branch.md rest on: the test, the target, what BR leaves, and the fetch after it. -/

namespace Sys2Proof.Machine

/-! ## The test -/

/-- Two bit vectors have no bit in common exactly if, wherever the first has a bit set, the second has it clear. -/
theorem and_eq_zero_iff {n : Nat} (x y : BitVec n) :
    x &&& y = 0#n ↔ ∀ k < n, x.getLsbD k = true → y.getLsbD k = false := by
  simp [BitVec.eq_of_getLsbD_eq_iff]

/-- BR's test is a bitwise AND (41_branch.md R143). -/
theorem State.condHolds_iff (s : State) (c : BitVec 3) :
    s.condHolds c = true ↔ c &&& s.cc ≠ 0b000#3 := bne_iff_ne

/-- A condition code with one bit set passes the test of BRnzp (41_branch.md R142). -/
theorem OneHot.all_and_ne_zero {cc : BitVec 3} (h : OneHot cc) : 0b111#3 &&& cc ≠ 0b000#3 := by
  rcases h with rfl | rfl | rfl <;> decide

/-! ## The target -/

/-- The target is the integer sum of `pc` and the signed offset, modulo 2^16 (41_branch.md R140). -/
theorem State.eaPcRel_eq_ofInt (s : State) (off : BitVec 9) :
    s.eaPcRel off = BitVec.ofInt 16 ((s.pc.toNat : Int) + off.toInt) := by
  rw [BitVec.ofInt_add, BitVec.ofInt_natCast, BitVec.ofNat_toNat, BitVec.setWidth_eq]
  rfl

/-- A branch from an address of memory + 1 goes to the integer sum, or wraps once below 0 (41_branch.md R144). -/
theorem State.eaPcRel_range {s : State} (hpos : 1 ≤ s.pc.toNat) (hle : s.pc.toNat ≤ 50) (off : BitVec 9) :
    (0 ≤ (s.pc.toNat : Int) + off.toInt →
      ((s.eaPcRel off).toNat : Int) = s.pc.toNat + off.toInt ∧ (s.eaPcRel off).toNat ≤ 305) ∧
    ((s.pc.toNat : Int) + off.toInt < 0 →
      ((s.eaPcRel off).toNat : Int) = s.pc.toNat + off.toInt + 65536 ∧ 0xFF01 ≤ (s.eaPcRel off).toNat) := by
  have hsum : (s.eaPcRel off).toNat = (((s.pc.toNat : Int) + off.toInt) % (2 ^ 16 : Nat)).toNat := by
    rw [s.eaPcRel_eq_ofInt, BitVec.toNat_ofInt]
  have hlt := BitVec.toInt_lt (x := off)
  have hge := BitVec.le_toInt (x := off)
  omega

/-- After a fetch, the offset -1 leads back to the word fetched (41_branch.md R144). -/
theorem State.fetched_eaPcRel_neg_one (s : State) : s.fetched.eaPcRel 0b111111111#9 = s.pc := by
  have hcancel : 1#16 + sext9 0b111111111#9 = 0#16 := by decide
  rw [State.eaPcRel, State.fetched_pc, BitVec.add_assoc, hcancel, BitVec.add_zero]

/-! ## What BR leaves -/

/-- `pc` after a BR. -/
def State.branchPc (s : State) (c : BitVec 3) (off : BitVec 9) : Word :=
  if s.condHolds c then s.eaPcRel off else s.pc

theorem State.branchPc_of_taken {s : State} {c : BitVec 3} (hc : c &&& s.cc ≠ 0b000#3) (off : BitVec 9) :
    s.branchPc c off = s.eaPcRel off := if_pos ((s.condHolds_iff c).mpr hc)

theorem State.branchPc_of_notTaken {s : State} {c : BitVec 3} (hc : c &&& s.cc = 0b000#3) (off : BitVec 9) :
    s.branchPc c off = s.pc := if_neg fun h => (s.condHolds_iff c).mp h hc

/-- BR writes `pc` and completes, and does nothing else. -/
theorem exec_br (c : BitVec 3) (off : BitVec 9) (s : State) :
    exec (.br c off) s = .next (State.complete { s with pc := s.branchPc c off }) := rfl

theorem exec_br_of_taken {s : State} {c : BitVec 3} (hc : c &&& s.cc ≠ 0b000#3) (off : BitVec 9) :
    exec (.br c off) s = .next (State.complete { s with pc := s.eaPcRel off }) := by
  rw [exec_br, State.branchPc_of_taken hc]

theorem exec_br_of_notTaken {s : State} {c : BitVec 3} (hc : c &&& s.cc = 0b000#3) (off : BitVec 9) :
    exec (.br c off) s = .next s.complete := by
  rw [exec_br, State.branchPc_of_notTaken hc]

/-! ## The fetch after it -/

/-- A fetch at 50 or above raises its `AddressError` at `pc` (40_cycle.md R121). -/
theorem step_raises_of_fetch_ge {s : State} (hf : s.fsm = .fetch) (hpc : 50 ≤ s.pc.toNat) :
    ∃ t, step s = .next t ∧ RaisesAddressError s t s.pc .fetch :=
  ⟨_, step_of_fetch_ge hf hpc, s.raiseAddressError_raises s.pc .fetch⟩

/-- A step at a taken BR to itself changes no more than `ir`. -/
theorem step_of_selfBranch {s : State} {c : BitVec 3} (hf : s.fsm = .fetch) (hpc : s.pc.toNat < 50)
    (hc : c &&& s.cc ≠ 0b000#3) (hi : decode (s.mem.read s.pc.toNat) = .br c 0b111111111#9) :
    step s = .next { s with ir := s.mem.read s.pc.toNat } := by
  have htaken : c &&& s.fetched.cc ≠ 0b000#3 := hc
  rw [step_of_fetch_lt hf hpc, hi, exec_br_of_taken htaken, s.fetched_eaPcRel_neg_one]
  simp only [State.complete, State.fetched, hf]

/-- Any number of steps at a taken BR to itself changes no more than `ir`. -/
theorem run_of_selfBranch (n : Nat) {s : State} {c : BitVec 3} (hf : s.fsm = .fetch) (hpc : s.pc.toNat < 50)
    (hc : c &&& s.cc ≠ 0b000#3) (hi : decode (s.mem.read s.pc.toNat) = .br c 0b111111111#9) :
    ∃ w : Word, Sys2Proof.core.run n s = .next { s with ir := w } := by
  induction n generalizing s with
  | zero => exact ⟨s.ir, rfl⟩
  | succ n ih =>
    rw [core_run_succ n s _ (step_of_selfBranch hf hpc hc hi)]
    exact ih (s := { s with ir := s.mem.read s.pc.toNat }) hf hpc hc hi

end Sys2Proof.Machine
end

section
/-! The statements of 41_branch.md. -/

namespace Sys2Proof.Machine

/-- Settles O25: BR writes `pc` alone, a common bit of condition and `cc` being a nonzero AND. -/
theorem branchOnCondition : Obligations.BranchOnCondition := by
  refine ⟨fun c off => (Layout.br c off).decode_eq, fun s c off =>
    ⟨_, exec_br c off s, fun ⟨k, hk, hck, hcc⟩ => ?_, fun hnone => ?_, step_raises_of_fetch_ge rfl,
      fun _ => rfl, rfl, rfl, rfl, fun _ => rfl, ⟨rfl, rfl, rfl⟩, rfl, rfl⟩⟩
  · have htaken : c &&& s.cc ≠ 0b000#3 := fun hzero => by
      simp [(and_eq_zero_iff c s.cc).mp hzero k hk hck] at hcc
    exact (State.branchPc_of_taken htaken off).trans (s.eaPcRel_eq_ofInt off)
  · exact State.branchPc_of_notTaken ((and_eq_zero_iff c s.cc).mpr hnone) off

/-- Settles O26: 000 has no bit in common with any `cc`, and reset memory lists no word. -/
theorem branchOnNothingNeverTaken : Obligations.BranchOnNothingNeverTaken :=
  ⟨fun _ off => exec_br_of_notTaken BitVec.zero_and off, (Layout.br 0b000#3 0#9).decode_eq, Memory.read_nil⟩

/-- Settles O27: the one bit set in `cc` is among the three tested. -/
theorem branchOnAllAlwaysTaken : Obligations.BranchOnAllAlwaysTaken := fun _ off hcc =>
  ⟨hcc.all_and_ne_zero, exec_br_of_taken hcc.all_and_ne_zero off⟩

/-- Settles O28, by the two outcomes of the test; for BRzp the AND is computed for each one-hot `cc`. -/
theorem branchTestIsAndNotEquality : Obligations.BranchTestIsAndNotEquality := by
  refine fun s off => ⟨fun c => ?_, fun hcc => exec_br_of_taken ?_ off, fun hcc => exec_br_of_notTaken ?_ off⟩
  · split_ifs with hc
    · exact exec_br_of_notTaken hc off
    · exact exec_br_of_taken hc off
  · rcases hcc with hcc | hcc <;> rw [hcc] <;> decide
  · rw [hcc]
    decide

/-- Settles O29: a taken BR leaves its target unchecked in `pc`, from which the next step fetches. -/
theorem branchTargets : Obligations.BranchTargets := by
  intro s t c off hpos hle hc h
  rw [exec_br_of_taken hc] at h
  obtain rfl := Host.Outcome.next.inj h
  obtain ⟨hexact, hwrapped⟩ := State.eaPcRel_range hpos hle off
  exact ⟨hexact, hwrapped, rfl, step_raises_of_fetch_ge rfl⟩

/-- Settles O30, by induction on the number of steps: each changes no more than `ir`. -/
theorem selfBranchNeverEnds : Obligations.SelfBranchNeverEnds := by
  intro s c n hf hpc hc hi
  obtain ⟨w, hrun⟩ := run_of_selfBranch n hf hpc hc hi
  exact ⟨_, hrun, hf, rfl, fun _ => rfl, rfl, fun _ => rfl, rfl, rfl⟩

end Sys2Proof.Machine
end

section
/-! The layer of rules the statements of 42_alu.md rest on: the ALU's functions by value and by bit, and the five handlers as one result write. -/

namespace Sys2Proof.Machine

/-! ## The ALU -/

/-- ADD is the integer sum of the two signed values, wrapped to 16 bits (42_alu.md R150). -/
theorem aluAdd_eq_ofInt (a b : Word) : aluAdd a b = BitVec.ofInt 16 (b.toInt + a.toInt) := by
  rw [BitVec.ofInt_add, BitVec.ofInt_toInt, BitVec.ofInt_toInt, BitVec.add_comm, aluAdd]

/-- With an immediate, the signed value added is the one of the field before its extension (42_alu.md R151). -/
theorem aluAdd_sext5_eq_ofInt (a : Word) (imm : BitVec 5) :
    aluAdd a (sext5 imm) = BitVec.ofInt 16 (imm.toInt + a.toInt) := by
  rw [Int.add_comm]
  exact add_signExtend_eq_ofInt a imm

theorem toNat_aluAdd (a b : Word) : (aluAdd a b).toNat = (a.toNat + b.toNat) % 65536 :=
  BitVec.toNat_add a b

/-- Read unsigned, ADD is the sum of the signed values modulo 2^16 too (42_alu.md R155). -/
theorem toNat_aluAdd_eq_toInt_mod (a b : Word) :
    ((aluAdd a b).toNat : Int) = (a.toInt + b.toInt) % 65536 := by
  rw [aluAdd_eq_ofInt, Int.add_comm, BitVec.toNat_ofInt]
  exact Int.toNat_of_nonneg (Int.emod_nonneg _ (by decide))

@[simp] theorem getLsbD_aluAnd (a b : Word) (k : Nat) :
    (aluAnd a b).getLsbD k = (a.getLsbD k && b.getLsbD k) := BitVec.getLsbD_and

@[simp] theorem getLsbD_aluNot (a : Word) {k : Nat} (hk : k < 16) :
    (aluNot a).getLsbD k = !a.getLsbD k := by
  simp [aluNot, hk]

/-- Inverting is its own inverse (42_alu.md R154). -/
theorem aluNot_aluNot (a : Word) : aluNot (aluNot a) = a := BitVec.not_not

theorem toNat_aluNot (a : Word) : (aluNot a).toNat = 65535 - a.toNat := BitVec.toNat_not

/-- The two's complement subtraction: an inversion, and one added (42_alu.md R156). -/
theorem aluAdd_aluNot_add_one (a b : Word) : aluAdd (aluAdd a (aluNot b)) 1#16 = a - b := by
  rw [BitVec.sub_eq_add_neg, BitVec.neg_eq_not_add, aluAdd, aluAdd, aluNot, BitVec.add_assoc]

/-- Above bit 4 of a sign-extended imm5 stands bit 4 again (30_encoding.md R96). -/
theorem getLsbD_sext5 (f : BitVec 5) {k : Nat} (hk : k < 16) :
    (sext5 f).getLsbD k = f.getLsbD (min k 4) := by
  rw [sext5, BitVec.getLsbD_signExtend, decide_eq_true hk, Bool.true_and]
  split_ifs with hlow
  · rw [Nat.min_eq_left (by omega)]
  · rw [Nat.min_eq_right (by omega), BitVec.msb_eq_getLsbD_last]

/-! ## The handlers -/

section Handlers

variable (dr sr1 sr2 sr : Reg) (imm : BitVec 5) (s : State)

theorem exec_addReg : exec (.addReg dr sr1 sr2) s =
    .next (s.writeResult dr (aluAdd (s.reg sr1) (s.reg sr2))) := rfl

theorem exec_addImm : exec (.addImm dr sr1 imm) s =
    .next (s.writeResult dr (aluAdd (s.reg sr1) (sext5 imm))) := rfl

theorem exec_andReg : exec (.andReg dr sr1 sr2) s =
    .next (s.writeResult dr (aluAnd (s.reg sr1) (s.reg sr2))) := rfl

theorem exec_andImm : exec (.andImm dr sr1 imm) s =
    .next (s.writeResult dr (aluAnd (s.reg sr1) (sext5 imm))) := rfl

theorem exec_not : exec (.not dr sr) s = .next (s.writeResult dr (aluNot (s.reg sr))) := rfl

end Handlers

/-- The register a result was written to holds it. -/
theorem State.writeResult_reg_self (s : State) (d : Reg) (v : Word) : (s.writeResult d v).reg d = v :=
  (s.writeResult_reg d d v).trans (if_pos rfl)

end Sys2Proof.Machine
end

section
/-! The statements of 42_alu.md. -/

namespace Sys2Proof.Machine

/-- Settles O16: the handler writes the ALU's sum, which is the wrapped signed sum. -/
theorem addRegister : Obligations.AddRegister := by
  refine ⟨fun d a x b => (Layout.addReg d a x b).decode_eq, fun s dr sr1 sr2 =>
    ⟨_, exec_addReg dr sr1 sr2 s, ?_⟩⟩
  rw [← aluAdd_eq_ofInt]
  exact s.writeResult_writes dr _

/-- Settles O17: the handler writes the ALU's sum, in which the extended imm5 counts with its own signed value. -/
theorem addImmediate : Obligations.AddImmediate := by
  refine ⟨fun d a imm => (Layout.addImm d a imm).decode_eq, fun s dr sr1 imm =>
    ⟨_, exec_addImm dr sr1 imm s, ?_⟩⟩
  rw [← aluAdd_sext5_eq_ofInt]
  exact s.writeResult_writes dr _

/-- Settles O18: the handler writes the ALU's AND, which is bitwise. -/
theorem andRegister : Obligations.AndRegister :=
  ⟨fun d a x b => (Layout.andReg d a x b).decode_eq, fun s dr sr1 sr2 =>
    ⟨_, exec_andReg dr sr1 sr2 s, _, s.writeResult_writes dr _, fun k _ => getLsbD_aluAnd _ _ k⟩⟩

/-- Settles O19: the handler writes the ALU's AND, bitwise, with an imm5 whose top bit fills the bits above it. -/
theorem andImmediate : Obligations.AndImmediate := by
  refine ⟨fun d a imm => (Layout.andImm d a imm).decode_eq, fun s dr sr1 imm =>
    ⟨_, exec_andImm dr sr1 imm s, _, s.writeResult_writes dr _, fun k hk => ?_⟩⟩
  rw [getLsbD_aluAnd, getLsbD_sext5 imm hk]

/-- Settles O20: the handler writes the ALU's NOT, and a second one inverts what the first wrote. -/
theorem notInverts : Obligations.NotInverts := by
  refine ⟨fun d r x => (Layout.not d r x).decode_eq, fun s dr sr => ⟨_, exec_not dr sr s,
    ⟨_, s.writeResult_writes dr _, fun _ => getLsbD_aluNot _⟩, _, exec_not dr dr _, ?_⟩⟩
  rw [State.writeResult_reg_self, State.writeResult_reg_self, aluNot_aluNot]

/-- Settles O21, by the laws of the three functions. -/
theorem aluArithmetic : Obligations.AluArithmetic := fun a b =>
  ⟨toNat_aluAdd a b, toNat_aluAdd_eq_toInt_mod a b, toNat_aluNot a, BitVec.and_not_self a,
    BitVec.and_self, aluAdd_aluNot_add_one a b⟩

end Sys2Proof.Machine
end

section
/-! The layer of rules the statements of 43_load_store.md rest on: what an access leaves, as a change of the state, and the handlers as accesses. -/

namespace Sys2Proof.Machine

/-! ## What an access leaves -/

/-- A read below 50 whose word is the result. -/
theorem State.loadThen_writes (s : State) (d : Reg) {a : Word} (ha : a.toNat < 50) :
    WritesResult s (s.loadThen a (s.writeResult d)) d (s.mem.read a.toNat) := by
  rw [s.loadThen_of_lt a _ ha]
  exact s.writeResult_writes d _

/-- A read at 50 or above, whatever was to follow it. -/
theorem State.loadThen_raises (s : State) {a : Word} (k : Word → State) (ha : 50 ≤ a.toNat) :
    RaisesAddressError s (s.loadThen a k) a .load := by
  rw [s.loadThen_of_ge a k ha]
  exact s.raiseAddressError_raises a .load

/-- A write at 50 or above, whatever the word. -/
theorem State.storeWord_raises (s : State) {a : Word} (v : Word) (ha : 50 ≤ a.toNat) :
    RaisesAddressError s (s.storeWord a v) a .store := by
  rw [s.storeWord_of_ge a v ha]
  exact s.raiseAddressError_raises a .store

/-! ## The handlers -/

section Handlers

variable (r base : Reg) (off6 : BitVec 6) (off : BitVec 9) (s : State)

theorem exec_ld : exec (.ld r off) s = .next (s.loadThen (s.eaPcRel off) (s.writeResult r)) := rfl

theorem exec_ldr : exec (.ldr r base off6) s =
    .next (s.loadThen (s.eaBaseOff base off6) (s.writeResult r)) := rfl

theorem exec_ldi : exec (.ldi r off) s =
    .next (s.loadThen (s.eaPcRel off) fun p => s.loadThen p (s.writeResult r)) := rfl

theorem exec_lea : exec (.lea r off) s = .next (s.writeResult r (s.eaPcRel off)) := rfl

variable {off s} (hptr : (s.eaPcRel off).toNat < 50)
include hptr

/-- With a pointer in memory, LDI is a load at the pointer. -/
theorem exec_ldi_of_lt : exec (.ldi r off) s =
    .next (s.loadThen (s.mem.read (s.eaPcRel off).toNat) (s.writeResult r)) := by
  rw [exec_ldi, s.loadThen_of_lt _ _ hptr]

/-- With a pointer in memory, STI is a store at the pointer. -/
theorem exec_sti_of_lt : exec (.sti r off) s =
    .next (s.storeWord (s.mem.read (s.eaPcRel off).toNat) (s.reg r)) := by
  rw [exec_sti, s.loadThen_of_lt _ _ hptr]

end Handlers

end Sys2Proof.Machine
end

section
/-! The statements of 43_load_store.md. -/

namespace Sys2Proof.Machine

/-- Settles O32, by the read on either side of 50. -/
theorem loadPcRelative : Obligations.LoadPcRelative :=
  ⟨fun d off => (Layout.ld d off).decode_eq, fun s dr off => ⟨rfl,
    fun hea => ⟨_, exec_ld dr off s, s.loadThen_writes dr hea⟩,
    fun hea => ⟨_, exec_ld dr off s, s.loadThen_raises _ hea⟩⟩⟩

/-- Settles O33, by the read on either side of 50; the address is taken before the result is written, so DR may be BaseR. -/
theorem loadBaseOffset : Obligations.LoadBaseOffset :=
  ⟨fun d b off => (Layout.ldr d b off).decode_eq, fun s dr b off => ⟨rfl,
    fun hea => ⟨_, exec_ldr dr b off s, s.loadThen_writes dr hea⟩,
    fun hea => ⟨_, exec_ldr dr b off s, s.loadThen_raises _ hea⟩⟩⟩

/-- Settles O34, by the write on either side of 50. -/
theorem storeBaseOffset : Obligations.StoreBaseOffset :=
  ⟨fun r b off => (Layout.str r b off).decode_eq, fun s sr b off hm => ⟨rfl,
    fun hea => ⟨_, exec_str sr b off s, s.storeWord_stores hm _ _ hea⟩,
    fun hea => ⟨_, exec_str sr b off s, s.storeWord_raises _ hea⟩⟩⟩

/-- Settles O35: with a pointer in memory the handler is a load at the pointer, and otherwise the read of the pointer raises. -/
theorem loadIndirect : Obligations.LoadIndirect := by
  refine ⟨fun d off => (Layout.ldi d off).decode_eq, ?_⟩
  rintro s dr off _ _ rfl rfl
  exact ⟨rfl, fun hptr hp => ⟨_, exec_ldi_of_lt dr hptr, s.loadThen_writes dr hp⟩,
    fun hptr => ⟨_, exec_ldi dr off s, s.loadThen_raises _ hptr⟩,
    fun hptr hp => ⟨_, exec_ldi_of_lt dr hptr, s.loadThen_raises _ hp⟩⟩

/-- Settles O36: with a pointer in memory the handler is a store at the pointer, and otherwise the read of the pointer raises. -/
theorem storeIndirect : Obligations.StoreIndirect := by
  refine ⟨fun r off => (Layout.sti r off).decode_eq, ?_⟩
  rintro s sr off _ _ hm rfl rfl
  exact ⟨rfl, fun hptr hp => ⟨_, exec_sti_of_lt sr hptr, s.storeWord_stores hm _ _ hp⟩,
    fun hptr => ⟨_, exec_sti sr off s, s.loadThen_raises _ hptr⟩,
    fun hptr hp => ⟨_, exec_sti_of_lt sr hptr, s.storeWord_raises _ hp⟩⟩

/-- Settles O37: the handler writes the address as its result, which is the wrapped integer sum. -/
theorem loadEffectiveAddress : Obligations.LoadEffectiveAddress := by
  refine ⟨fun d off => (Layout.lea d off).decode_eq, fun s dr off => ⟨_, exec_lea dr off s, ?_⟩⟩
  rw [← s.eaPcRel_eq_ofInt]
  exact s.writeResult_writes dr _

end Sys2Proof.Machine
end

section
/-! The layer of rules the statements of 44_trap.md rest on: the three handlers as operations of the state, and who reaches HALTED. -/

namespace Sys2Proof.Machine

/-- TRAP OUT issues `Out(x[0])` and completes (44_trap.md R201). -/
theorem exec_trapOut (s : State) : exec .trapOut s = .next (s.emitOut (s.reg 0)).complete := rfl

/-- TRAP HALT stops the run (44_trap.md R202). -/
theorem exec_trapHalt (s : State) : exec .trapHalt s = .next s.stopHalted := rfl

/-- TRAP with another vector logs INVALID_TRAP and completes (44_trap.md R203). -/
theorem exec_trapInvalid (v : BitVec 8) (s : State) :
    exec (.trapInvalid v) s = .next (s.logSoftError .invalidTrap).complete := rfl

/-- Of the three ways a handler ends a pass, TRAP HALT's alone leaves HALTED. -/
theorem HandlerEffect.eq_trapHalt_of_halted {i : Instr} {s t : State} (he : HandlerEffect s i t)
    (ht : t.fsm = .halted) : i = .trapHalt := by
  rcases he.end_cases with ⟨hfetch, -⟩ | ⟨hi, -⟩ | ⟨a, k, -, rfl⟩
  · simp [hfetch] at ht
  · exact hi
  · simp at ht

theorem State.executeReturn_of_halted {s : State} (h : s.fsm = .halted) :
    s.executeReturn = some .halt := by
  simp only [State.executeReturn, h]

/-- The console shows a value below 256 as the Latin-1 character of that code. -/
theorem consoleCodePoint_of_lt {v : Word} (hv : v.toNat < 256) : consoleCodePoint v = v.toNat :=
  if_pos hv

end Sys2Proof.Machine
end

section
/-! The statements of 44_trap.md. -/

namespace Sys2Proof.Machine

/-- Settles O40: the handler appends `x[0]` to the console trace and completes, and neither operation touches anything else. -/
theorem trapOutDelivers : Obligations.TrapOutDelivers :=
  ⟨fun x => (Layout.trapOut x).decode_eq,
    fun s => ⟨_, exec_trapOut s, s.emitOut_console (s.reg 0), rfl, State.complete_fsm _,
      fun _ => rfl, rfl, rfl, rfl, fun _ => rfl, rfl, rfl, rfl⟩,
    fun _ => consoleCodePoint_of_lt⟩

/-- Settles O41: the handler stops the run and touches nothing else; no other way of ending a handler leaves HALTED. -/
theorem trapHaltStops : Obligations.TrapHaltStops :=
  ⟨fun x => (Layout.trapHalt x).decode_eq,
    fun s => ⟨_, exec_trapHalt s, s.stopHalted_fsm, s.stopHalted_stopCause,
      State.executeReturn_of_halted s.stopHalted_fsm,
      fun _ => rfl, rfl, rfl, rfl, fun _ => rfl, ⟨rfl, rfl⟩, rfl, rfl⟩,
    fun _ _ _ h => (exec_effect h).eq_trapHalt_of_halted⟩

/-- Settles O42: a vector that is neither OUT's nor HALT's is laid out for the invalid TRAP, whose handler logs the one error. -/
theorem trapInvalidVectorIsLogged : Obligations.TrapInvalidVectorIsLogged :=
  ⟨fun x _ hout hhalt => (Layout.trapInvalid x hout hhalt).decode_eq,
    fun v s _ _ => ⟨_, exec_trapInvalid v s, s.logSoftError_logs .invalidTrap⟩, rfl⟩

end Sys2Proof.Machine
end

section
/-! The layer of rules the statements of 60_exceptions.md rest on: what each point of the table of R221 leaves, and the steps that end in FAULTED. -/

namespace Sys2Proof.Machine

/-- `EndsAsTable s p t`: `t` is a state a handler may leave `s` in where `p` is the point the table of 60_exceptions.md R221 gives it.
With a point, the `AddressError` of that LOAD or STORE at an address that is not below 50 has been taken, and nothing else; with none, no error has been.
`exec_endsAsTable` ties it to `exec` and `raisingPoint`. -/
inductive EndsAsTable (s : State) : Option (Word × Access) → State → Prop where
  | raises {a : Word} {k : Access} (ha : 50 ≤ a.toNat) (hk : k ≠ .fetch) :
      EndsAsTable s (some (a, k)) (s.raiseAddressError a k)
  | goesOn {t : State} (ht : t.fsm ≠ .faulted) (haddr : t.faultAddr = s.faultAddr)
      (haccess : t.faultAccess = s.faultAccess) : EndsAsTable s none t

namespace EndsAsTable

variable {s t : State}

/-- The point of a read is its LOAD where that fails, and else the point of what follows it (60_exceptions.md R228). -/
theorem loadThen (a : Word) {k : Word → State} {p : Option (Word × Access)}
    (hk : EndsAsTable s p (k (s.mem.read a.toNat))) :
    EndsAsTable s (if 50 ≤ a.toNat then some (a, .load) else p) (s.loadThen a k) := by
  rcases s.loadThen_cases a k with ⟨ha, h⟩ | ⟨ha, h⟩
  · rwa [h, if_neg (Nat.not_le.mpr ha)]
  · rw [h, if_pos ha]
    exact .raises ha (by decide)

theorem complete {u : State} (haddr : u.faultAddr = s.faultAddr) (haccess : u.faultAccess = s.faultAccess) :
    EndsAsTable s none u.complete :=
  .goesOn (by simp) haddr haccess

theorem storeWord (a v : Word) :
    EndsAsTable s (if 50 ≤ a.toNat then some (a, .store) else none) (s.storeWord a v) := by
  rcases s.storeWord_cases a v with ⟨ha, h⟩ | ⟨ha, h⟩
  · rw [h, if_neg (Nat.not_le.mpr ha)]
    exact .complete rfl rfl
  · rw [h, if_pos ha]
    exact .raises ha (by decide)

theorem writeResult (d : Reg) (v : Word) : EndsAsTable s none (s.writeResult d v) :=
  .goesOn (by simp) rfl rfl

theorem raisesAddressError {a : Word} {k : Access} (he : EndsAsTable s (some (a, k)) t) :
    50 ≤ a.toNat ∧ RaisesAddressError s t a k := by
  cases he with
  | raises ha => exact ⟨ha, s.raiseAddressError_raises a k⟩

theorem keepsRecord (he : EndsAsTable s none t) :
    t.fsm ≠ .faulted ∧ t.faultAddr = s.faultAddr ∧ t.faultAccess = s.faultAccess := by
  cases he with
  | goesOn ht haddr haccess => exact ⟨ht, haddr, haccess⟩

/-- A handler that ends in FAULTED has done no more than take the `AddressError` of a LOAD or a STORE. -/
theorem eq_raiseAddressError {p : Option (Word × Access)} (he : EndsAsTable s p t)
    (ht : t.fsm = .faulted) :
    ∃ (a : Word) (k : Access), 50 ≤ a.toNat ∧ k ≠ .fetch ∧ t = s.raiseAddressError a k := by
  cases he with
  | raises ha hk => exact ⟨_, _, ha, hk, rfl⟩
  | goesOn hne => exact absurd ht hne

end EndsAsTable

/-- Every handler ends as the table of 60_exceptions.md R221 says: its accesses are the table's, in the table's order. -/
theorem exec_endsAsTable {i : Instr} {s t : State} (h : exec i s = .next t) :
    EndsAsTable s (raisingPoint i s) t := by
  cases i <;> obtain rfl := Host.Outcome.next.inj h
  case ld | ldr => exact .loadThen _ (.writeResult _ _)
  case ldi => exact .loadThen _ (.loadThen _ (.writeResult _ _))
  case str => exact .storeWord _ _
  case sti => exact .loadThen _ (.storeWord _ _)
  case addReg | addImm | andReg | andImm | not | lea => exact .writeResult _ _
  case trapHalt => exact .goesOn (by simp) rfl rfl
  case br | trapOut | trapInvalid | invalid3 | invalid4 | invalid8 | invalid12 | invalid13 =>
    exact .complete rfl rfl

/-- All a step from FETCH to FAULTED can have done: the fetch's `AddressError`, or the one of a LOAD or a STORE of the instruction fetched. -/
theorem step_faulted_cases {s t : State} (hf : s.fsm = .fetch) (h : step s = .next t)
    (ht : t.fsm = .faulted) :
    (50 ≤ s.pc.toNat ∧ t = s.raiseAddressError s.pc .fetch) ∨
    (s.pc.toNat < 50 ∧ ∃ (a : Word) (k : Access), 50 ≤ a.toNat ∧ k ≠ .fetch ∧
      t = s.fetched.raiseAddressError a k) := by
  rcases Nat.lt_or_ge s.pc.toNat 50 with hpc | hpc
  · rw [step_of_fetch_lt hf hpc] at h
    exact .inr ⟨hpc, (exec_endsAsTable h).eq_raiseAddressError ht⟩
  · rw [step_of_fetch_ge hf hpc] at h
    exact .inl ⟨hpc, (Host.Outcome.next.inj h).symm⟩

/-- No step leaves FAULTED (40_cycle.md R127). -/
theorem step_eq_self_of_faulted {s t : State} (hs : s.fsm = .faulted) (h : step s = .next t) : t = s := by
  rw [step_of_stopped (.inr (.inr hs))] at h
  exact (Host.Outcome.next.inj h).symm

end Sys2Proof.Machine
end

section
/-! The statements of 60_exceptions.md. -/

namespace Sys2Proof.Machine

/-- Settles O44: every handler ends as the table says, at a LOAD or a STORE or with no error; a FETCH error is the fetch's at 50 or above. -/
theorem addressErrorRaisingPoints : Obligations.AddressErrorRaisingPoints := by
  refine ⟨fun i s => ?_, fun s => step_raises_of_fetch_ge, fun s t hf hpc h ht => ?_, rfl, rfl, rfl⟩
  · obtain ⟨t, h⟩ := exec_answers i s
    have he := exec_endsAsTable h
    exact ⟨t, h, fun a k hp => (hp ▸ he).raisesAddressError, fun hp => (hp ▸ he).keepsRecord⟩
  · rcases step_faulted_cases hf h ht with ⟨hge, -⟩ | ⟨-, a, k, -, hk, rfl⟩
    · exact absurd hpc (Nat.not_lt.mpr hge)
    · exact hk

/-- Settles O45, by the two ways a step comes to FAULTED: each writes the record only, before the fetch or after it. -/
theorem addressErrorIsPrecise : Obligations.AddressErrorIsPrecise := by
  intro s t hf h ht
  have hstay : ∀ u, step t = .next u → u = t := fun _ => step_eq_self_of_faulted ht
  rcases step_faulted_cases hf h ht with ⟨hpc, rfl⟩ | ⟨hpc, a, k, ha, hk, rfl⟩
  · exact ⟨fun _ => rfl, rfl, fun _ => rfl, ⟨rfl, rfl⟩, rfl, hpc, fun _ => ⟨rfl, rfl, rfl⟩,
      fun hne => absurd rfl hne, hstay⟩
  · exact ⟨fun _ => rfl, rfl, fun _ => rfl, ⟨rfl, rfl⟩, rfl, ha, fun heq => absurd heq hk,
      fun _ => ⟨hpc, rfl, rfl⟩, hstay⟩

end Sys2Proof.Machine
end

section
/-! The layer of rules the statements of 70_reset_and_hazards.md rest on: what a step and a host call do to the port traces, one equation per case of a host call, the reset values, and the word placed at `pc`. -/

namespace Sys2Proof.Machine

/-! ## The port traces -/

/-- `t` has the traces of `s`, but for at most one event appended to the end of one of them (70_reset_and_hazards.md R251). -/
def AppendsAtMostOneEvent (s t : State) : Prop :=
  ∃ (outs : List Word) (errs : List SoftError),
    t.console = s.console ++ outs ∧ t.diag = s.diag ++ errs ∧ outs.length + errs.length ≤ 1

theorem SameTraces.appendsAtMostOneEvent {s t : State} (h : SameTraces s t) : AppendsAtMostOneEvent s t := by
  obtain ⟨hconsole, hdiag⟩ := h
  exact ⟨[], [], by simpa using hconsole, by simpa using hdiag, by simp⟩

/-- Only TRAP OUT's handler and a soft error's issue an event, and each issues one. -/
theorem HandlerEffect.appendsAtMostOneEvent {i : Instr} {s t : State} (he : HandlerEffect s i t) :
    AppendsAtMostOneEvent s t := by
  cases he with
  | out => exact ⟨[s.reg 0], [], rfl, (List.append_nil _).symm, le_rfl⟩
  | softError hd k => exact ⟨[], [⟨k, s.pc - 1#16, s.ir⟩], (List.append_nil _).symm, rfl, le_rfl⟩
  | result | store | fault | taken | notTaken | halt => exact SameTraces.appendsAtMostOneEvent ⟨rfl, rfl⟩

/-- A step issues what its handler does, the fetch having issued nothing. -/
theorem step_appendsAtMostOneEvent {s t : State} (h : step s = .next t) : AppendsAtMostOneEvent s t := by
  rcases step_cases h with ⟨-, rfl⟩ | ⟨-, -, rfl⟩ | ⟨-, -, he⟩ | ⟨-, he⟩
  · exact SameTraces.appendsAtMostOneEvent ⟨rfl, rfl⟩
  · exact SameTraces.appendsAtMostOneEvent ⟨rfl, rfl⟩
  · exact (exec_effect he).appendsAtMostOneEvent
  · exact (exec_effect he).appendsAtMostOneEvent

/-- A host call other than `reset` leaves the traces as they were, and `reset` empties them. -/
theorem State.hostCall_traces (s : State) (c : HostCall) : SameTraces s (s.hostCall c).2 ∨
    (c = .reset ∧ (s.hostCall c).2.console = [] ∧ (s.hostCall c).2.diag = []) := by
  cases c with
  | reset => exact .inr ⟨rfl, rfl, rfl⟩
  | loadWord a w =>
    left
    rcases s.hostLoadWord_cases a w with ⟨-, -, h⟩ | h <;> rw [State.hostCall, h] <;> exact ⟨rfl, rfl⟩
  | execute =>
    left
    rcases s.hostExecute_cases with ⟨-, h⟩ | h <;> rw [State.hostCall, h] <;> exact ⟨rfl, rfl⟩

/-! ## The host calls, case by case -/

section HostCalls

variable {s : State}

theorem State.hostLoadWord_of_inRange (hf : s.fsm = .idle) {a : Int} (h0 : 0 ≤ a) (h50 : a < 50) (w : Word) :
    s.hostLoadWord a w = (.accepted, { s with mem := s.mem.write a.toNat w }) := by
  rw [State.hostLoadWord, if_pos hf, if_pos ⟨h0, h50⟩]

theorem State.hostLoadWord_of_outOfRange (hf : s.fsm = .idle) {a : Int} (ha : a < 0 ∨ 50 ≤ a) (w : Word) :
    s.hostLoadWord a w = (.addressError, s) := by
  have hrange : ¬ (0 ≤ a ∧ a < 50) := by omega
  exact (if_pos hf).trans (if_neg hrange)

theorem State.hostLoadWord_of_not_idle (hf : s.fsm ≠ .idle) (a : Int) (w : Word) :
    s.hostLoadWord a w = (.refused, s) := if_neg hf

theorem State.hostExecute_of_idle (hf : s.fsm = .idle) :
    s.hostExecute = (.accepted, { s with fsm := .fetch }) := if_pos hf

theorem State.hostExecute_of_not_idle (hf : s.fsm ≠ .idle) : s.hostExecute = (.refused, s) := if_neg hf

end HostCalls

/-! ## The reset values -/

/-- `x[i]` is `i` after reset (10_state.md R22). -/
theorem State.resetWith_reg (c : CcReset) (fa : Word) (fk : Access) (r : Reg) :
    (State.resetWith c fa fk).reg r = BitVec.ofNat 16 r.val := by
  fin_cases r <;> rfl

/-- Each of the three one-hot values may be CC_RESET, and no other may (10_state.md R34). -/
theorem oneHot_iff_exists_ccResetBits (b : BitVec 3) : OneHot b ↔ ∃ c : CcReset, ccResetBits c = b := by
  constructor
  · rintro (rfl | rfl | rfl)
    · exact ⟨.n, rfl⟩
    · exact ⟨.z, rfl⟩
    · exact ⟨.p, rfl⟩
  · rintro ⟨c, rfl⟩
    exact ccResetBits_oneHot c

/-! ## The word placed at `pc` -/

theorem tableWord_of_wordSize (w : Nat) : tableWord 16 w = BitVec.ofNat 16 w :=
  BitVec.eq_of_toNat_eq (by simp [tableWord])

theorem decodeTableWord_of_wordSize (w : Nat) : decodeTableWord 16 w = some (decode (BitVec.ofNat 16 w)) := by
  rw [decodeTableWord, if_pos le_rfl, tableWord_of_wordSize]

/-- Below 50, placing a word is storing it at `pc`, where the next step fetches (70_reset_and_hazards.md R255). -/
theorem State.withFetchWord_eq_storeWord {s : State} (hpc : s.pc.toNat < 50) (w : Nat) :
    s.withFetchWord 16 w = s.storeWord s.pc (BitVec.ofNat 16 w) := by
  rw [State.withFetchWord, tableWord_of_wordSize, s.memWrite_of_lt _ _ hpc, s.storeWord_of_lt _ _ hpc,
    State.complete]

end Sys2Proof.Machine
end

section
/-! The statements of 70_reset_and_hazards.md. -/

namespace Sys2Proof.Machine

/-- Settles O50: reset empties the traces, a step appends what its handler issues, and a stopped state has no step of its own. -/
theorem tracesOnlyGrow : Obligations.TracesOnlyGrow := by
  refine ⟨rfl, rfl, fun _ _ => step_appendsAtMostOneEvent, fun s t hstop h => ?_, State.hostCall_traces⟩
  rw [step_of_stopped hstop] at h
  obtain rfl := Host.Outcome.next.inj h
  exact ⟨rfl, rfl⟩

/-- Settles O52, by the invariant of `resetWith`, of which the machine's own reset is one. -/
theorem resetMeetsInvariant : Obligations.ResetMeetsInvariant :=
  ⟨State.resetWith_inv, State.resetWith_inv ..⟩

/-- Settles O54, by induction on how the state was reached: reset meets the invariant, and steps and host calls keep it. -/
theorem reachableStatesMeetInvariant : Obligations.ReachableStatesMeetInvariant := by
  intro s hs
  induction hs with
  | reset => exact State.resetWith_inv ..
  | step _ h ih => exact stepKeepsInvariant _ _ ih h
  | call c _ ih => exact hostCallsKeepInvariant _ c ih

/-- Settles O56, by the three cases of `loadWord`: in IDLE and in range, in IDLE and out of range, and elsewhere. -/
theorem loadWordCall : Obligations.LoadWordCall := by
  intro s a w hm
  refine ⟨fun hf h0 h50 => ?_, fun hf ha => State.hostLoadWord_of_outOfRange hf ha w, fun hf => ?_⟩
  · have ha : a.toNat < 50 := (Int.toNat_lt h0).mpr h50
    refine ⟨s.mem.write a.toNat w, State.hostLoadWord_of_inRange hf h0 h50 w, s.mem.write_wf hm _ ha w,
      ?_, fun b hb => ?_⟩
    · rw [s.mem.read_write hm, if_pos rfl]
    · rw [s.mem.read_write hm, if_neg hb]
  · rw [State.hostCall, State.hostLoadWord_of_not_idle hf]
    exact ⟨rfl, HostReply.noConfusion, fun _ _ => rfl⟩

/-- Settles O13: the placed word is stored at `pc`, and the next step runs a word stored there. -/
theorem placedWordIsRunNext : Obligations.PlacedWordIsRunNext := by
  intro s w hm hpc
  have hst := s.storeWord_stores hm s.pc (BitVec.ofNat 16 w) hpc
  have ⟨hread, hframe, _⟩ := hst
  refine ⟨_, hread, hframe, decodeTableWord_of_wordSize w, ?_⟩
  rw [State.withFetchWord_eq_storeWord hpc, hst.step_runs_stored hpc, s.storeWord_of_lt _ _ hpc]
  rfl

/-- Settles O55: a reset call gives the machine's own reset state, whatever state it is made in. -/
theorem resetValues : Obligations.ResetValues :=
  ⟨fun c fa fk r a => ⟨State.resetWith_reg c fa fk r, rfl, rfl, ccResetBits_oneHot c, rfl, rfl,
      Memory.read_nil a, rfl, rfl⟩,
    oneHot_iff_exists_ccResetBits, ⟨_, _, _, rfl⟩, fun _ => ⟨_, _, _, rfl⟩⟩

/-- Settles O57: the state a reset call leaves is in IDLE. -/
theorem executeCall : Obligations.ExecuteCall := fun _ =>
  ⟨State.hostExecute_of_idle, State.hostExecute_of_not_idle, State.hostExecute_of_idle rfl, rfl⟩

end Sys2Proof.Machine
end
